-- ==== Sys2Proof/Word.lean ====
section
/-! DEFINITION. The machine word, the byte and the register selector (00_scope.md R5, R8). -/

namespace Sys2Proof

/-- A register, a memory cell, an address or an instruction: 16 bits, unsigned, wrapping (R5, R8). -/
abbrev Word := BitVec 16

/-- A character of the input or output stream (80_interfaces.md R260, R264). -/
abbrev Byte := BitVec 8

/-- A 3-bit register selector; it names R0-R7 and nothing else (10_state.md R33). -/
abbrev Reg := BitVec 3

end Sys2Proof
end

