-- ==== Sys2Proof/Syntax.lean ====
section
/-! DEFINITION. The instruction set: one constructor per row of spec/opcode_table.json, each with the fields the
row's word carries (30_encoding.md R62). Fields are the raw bits; Machine/Operands.lean extends them (R63). -/

namespace Sys2Proof

/-- An instruction, as the decoder of 30_encoding.md R68 reads it. Bits the core does not read (R64) are no part
of it. -/
inductive Instr where
  /-- BR, cond = n z p from bit 2 down to bit 0 (42_control.md R150). -/
  | br (cond : BitVec 3) (off : BitVec 9)
  /-- ADD, register mode (40_operate.md R100). -/
  | addReg (dr sr1 sr2 : Reg)
  /-- ADD, immediate mode (40_operate.md R101). -/
  | addImm (dr sr1 : Reg) (imm : BitVec 5)
  /-- LD (41_data_movement.md R120). -/
  | ld (dr : Reg) (off : BitVec 9)
  /-- ST (41_data_movement.md R124). -/
  | st (sr : Reg) (off : BitVec 9)
  /-- JSR (42_control.md R153). -/
  | jsr (off : BitVec 11)
  /-- JSRR (42_control.md R154). -/
  | jsrr (base : Reg)
  /-- AND, register mode (40_operate.md R102). -/
  | andReg (dr sr1 sr2 : Reg)
  /-- AND, immediate mode (40_operate.md R103). -/
  | andImm (dr sr1 : Reg) (imm : BitVec 5)
  /-- LDR (41_data_movement.md R122). -/
  | ldr (dr base : Reg) (off : BitVec 6)
  /-- STR (41_data_movement.md R126). -/
  | str (sr base : Reg) (off : BitVec 6)
  /-- RTI, invalid in this design (43_trap_and_system.md R179). -/
  | rti
  /-- NOT (40_operate.md R104). -/
  | not (dr sr : Reg)
  /-- LDI (41_data_movement.md R121). -/
  | ldi (dr : Reg) (off : BitVec 9)
  /-- STI (41_data_movement.md R125). -/
  | sti (sr : Reg) (off : BitVec 9)
  /-- JMP through a register other than R7, in a well-formed term (42_control.md R151). -/
  | jmp (base : Reg)
  /-- RET, the table's name for the JMP words with BaseR = R7 (42_control.md R152; log 12). -/
  | ret
  /-- RES, reserved and invalid (43_trap_and_system.md R180). -/
  | res
  /-- LEA (41_data_movement.md R123). -/
  | lea (dr : Reg) (off : BitVec 9)
  /-- TRAP x20 (43_trap_and_system.md R171). -/
  | trapGetc
  /-- TRAP x21 (43_trap_and_system.md R172). -/
  | trapOut
  /-- TRAP x22 (43_trap_and_system.md R173). -/
  | trapPuts
  /-- TRAP x23 (43_trap_and_system.md R174). -/
  | trapIn
  /-- TRAP x24 (43_trap_and_system.md R175). -/
  | trapPutsp
  /-- TRAP x25 (43_trap_and_system.md R176). -/
  | trapHalt
  /-- TRAP with a vector outside x20..x25, in a well-formed term (43_trap_and_system.md R177). -/
  | trapOther (vector : Byte)
  deriving DecidableEq, Repr

end Sys2Proof
end

