-- ==== Sys2Proof/Decode.lean ====
section
/-! DEFINITION. The decoder, total on every 16-bit word (30_encoding.md R68), and the encoder written from the same
tables (R61, R62, R67). The opcode and vector NUMBERS are the spec's decisions D2 and D8 (log 10). -/

namespace Sys2Proof

/-- The sixteen opcodes, by name (30_encoding.md R61). -/
inductive Opcode where
  | br | add | ld | st | jsr | and | ldr | str | rti | not | ldi | sti | jmp | res | lea | trap
  deriving DecidableEq, Repr

/-- The number of an opcode in bits 15:12 (30_encoding.md R61, D2). -/
def opcodeBits : Opcode → BitVec 4
  | .br => 0x0 | .add => 0x1 | .ld => 0x2 | .st => 0x3
  | .jsr => 0x4 | .and => 0x5 | .ldr => 0x6 | .str => 0x7
  | .rti => 0x8 | .not => 0x9 | .ldi => 0xA | .sti => 0xB
  | .jmp => 0xC | .res => 0xD | .lea => 0xE | .trap => 0xF

/-- The opcode of a 4-bit number: all sixteen values are assigned (30_encoding.md R61). -/
def opcodeOfBits (b : BitVec 4) : Opcode :=
  match b with
  | 0x0#4 => .br | 0x1#4 => .add | 0x2#4 => .ld | 0x3#4 => .st
  | 0x4#4 => .jsr | 0x5#4 => .and | 0x6#4 => .ldr | 0x7#4 => .str
  | 0x8#4 => .rti | 0x9#4 => .not | 0xA#4 => .ldi | 0xB#4 => .sti
  | 0xC#4 => .jmp | 0xD#4 => .res | 0xE#4 => .lea
  | _ => .trap -- 0xF, the one value left

/-- `w[hi:lo]` as a field of `hi - lo + 1 = n` bits (00_scope.md R7). -/
def field (w : Word) (lo n : Nat) : BitVec n := w.extractLsb' lo n

/-- `IR[15:12]` read as an opcode (35_execution_cycle.md R83). -/
def opcodeOf (w : Word) : Opcode := opcodeOfBits (field w 12 4)

/-- Vector of GETC (30_encoding.md R67, D8). -/
def TrapVector.getc : Byte := 0x20

/-- Vector of OUT (30_encoding.md R67, D8). -/
def TrapVector.out : Byte := 0x21

/-- Vector of PUTS (30_encoding.md R67, D8). -/
def TrapVector.puts : Byte := 0x22

/-- Vector of IN (30_encoding.md R67, D8). -/
def TrapVector.inp : Byte := 0x23

/-- Vector of PUTSP (30_encoding.md R67, D8). -/
def TrapVector.putsp : Byte := 0x24

/-- Vector of HALT (30_encoding.md R67, D8). -/
def TrapVector.halt : Byte := 0x25

/-- The six vectors that select a routine (30_encoding.md R67). -/
def TrapVector.all : List Byte :=
  [TrapVector.getc, TrapVector.out, TrapVector.puts, TrapVector.inp, TrapVector.putsp, TrapVector.halt]

/-- The routine a vector selects; any other vector is the unknown-vector TRAP (43_trap_and_system.md R170). -/
def decodeTrap (v : Byte) : Instr :=
  if v = TrapVector.getc then .trapGetc
  else if v = TrapVector.out then .trapOut
  else if v = TrapVector.puts then .trapPuts
  else if v = TrapVector.inp then .trapIn
  else if v = TrapVector.putsp then .trapPutsp
  else if v = TrapVector.halt then .trapHalt
  else .trapOther v

/-- A JMP word; through R7 the table names it RET (42_control.md R151, R152; log 12). -/
def decodeJump (base : Reg) : Instr :=
  if base = 7#3 then .ret else .jmp base

/-- `Decode(w)`, total: every word is exactly one instruction (30_encoding.md R68). -/
def decode (w : Word) : Instr :=
  match opcodeOf w with
  | .br => .br (field w 9 3) (field w 0 9)
  | .add =>
    if w.getLsbD 5 then .addImm (field w 9 3) (field w 6 3) (field w 0 5)
    else .addReg (field w 9 3) (field w 6 3) (field w 0 3)
  | .ld => .ld (field w 9 3) (field w 0 9)
  | .st => .st (field w 9 3) (field w 0 9)
  | .jsr => if w.getLsbD 11 then .jsr (field w 0 11) else .jsrr (field w 6 3)
  | .and =>
    if w.getLsbD 5 then .andImm (field w 9 3) (field w 6 3) (field w 0 5)
    else .andReg (field w 9 3) (field w 6 3) (field w 0 3)
  | .ldr => .ldr (field w 9 3) (field w 6 3) (field w 0 6)
  | .str => .str (field w 9 3) (field w 6 3) (field w 0 6)
  | .rti => .rti
  | .not => .not (field w 9 3) (field w 6 3)
  | .ldi => .ldi (field w 9 3) (field w 0 9)
  | .sti => .sti (field w 9 3) (field w 0 9)
  | .jmp => decodeJump (field w 6 3)
  | .res => .res
  | .lea => .lea (field w 9 3) (field w 0 9)
  | .trap => decodeTrap (field w 0 8)

/-- A field `v` put at bits `lo` and up of a word, the other bits 0: the opposite of `field`. -/
def place {n : Nat} (v : BitVec n) (lo : Nat) : Word := v.setWidth 16 <<< lo

/-- An opcode's number in bits 15:12 of a word, over `rest` in the bits below (30_encoding.md R61). -/
def withOpcode (op : Opcode) (rest : Word) : Word := place (opcodeBits op) 12 ||| rest

/-- The word of an instruction: each field at its place in the table of 30_encoding.md R62. Bits the core does not read
are 0, but for NOT's bits 5:0, which an assembler writes as 111111 (R64, R69; log 13). -/
def encode : Instr → Word
  | .br cond off => withOpcode .br (place cond 9 ||| place off 0)
  | .addReg dr sr1 sr2 => withOpcode .add (place dr 9 ||| place sr1 6 ||| place sr2 0)
  | .addImm dr sr1 imm => withOpcode .add (place dr 9 ||| place sr1 6 ||| place 1#1 5 ||| place imm 0)
  | .ld dr off => withOpcode .ld (place dr 9 ||| place off 0)
  | .st sr off => withOpcode .st (place sr 9 ||| place off 0)
  | .jsr off => withOpcode .jsr (place 1#1 11 ||| place off 0)
  | .jsrr base => withOpcode .jsr (place base 6)
  | .andReg dr sr1 sr2 => withOpcode .and (place dr 9 ||| place sr1 6 ||| place sr2 0)
  | .andImm dr sr1 imm => withOpcode .and (place dr 9 ||| place sr1 6 ||| place 1#1 5 ||| place imm 0)
  | .ldr dr base off => withOpcode .ldr (place dr 9 ||| place base 6 ||| place off 0)
  | .str sr base off => withOpcode .str (place sr 9 ||| place base 6 ||| place off 0)
  | .rti => withOpcode .rti 0
  | .not dr sr => withOpcode .not (place dr 9 ||| place sr 6 ||| place 0b111111#6 0)
  | .ldi dr off => withOpcode .ldi (place dr 9 ||| place off 0)
  | .sti sr off => withOpcode .sti (place sr 9 ||| place off 0)
  | .jmp base => withOpcode .jmp (place base 6)
  | .ret => withOpcode .jmp (place 7#3 6)
  | .res => withOpcode .res 0
  | .lea dr off => withOpcode .lea (place dr 9 ||| place off 0)
  | .trapGetc => withOpcode .trap (place TrapVector.getc 0)
  | .trapOut => withOpcode .trap (place TrapVector.out 0)
  | .trapPuts => withOpcode .trap (place TrapVector.puts 0)
  | .trapIn => withOpcode .trap (place TrapVector.inp 0)
  | .trapPutsp => withOpcode .trap (place TrapVector.putsp 0)
  | .trapHalt => withOpcode .trap (place TrapVector.halt 0)
  | .trapOther v => withOpcode .trap (place v 0)

/-- The bits an instruction's words do not fix and the core does not read (30_encoding.md R64; RTI and RES abort
whatever their other bits, R65). -/
def unreadBits : Instr → Word
  | .addReg _ _ _ | .andReg _ _ _ => 0x0018
  | .not _ _ => 0x003F
  | .jmp _ | .ret => 0x0E3F
  | .jsrr _ => 0x063F
  | .trapGetc | .trapOut | .trapPuts | .trapIn | .trapPutsp | .trapHalt | .trapOther _ => 0x0F00
  | .rti | .res => 0x0FFF
  | .br _ _ | .addImm _ _ _ | .ld _ _ | .st _ _ | .jsr _ | .andImm _ _ _ | .ldr _ _ _ | .str _ _ _
  | .ldi _ _ | .sti _ _ | .lea _ _ => 0x0000

/-- The instruction the decoder reads from a table row's bits: one 16-bit word, its bits numbered as the table
numbers them, the bits above `nbits` zero (30_encoding.md R60). -/
def decodeTableWord (nbits w : Nat) : Option Instr :=
  if nbits ≤ 16 ∧ w < 2 ^ nbits then some (decode (BitVec.ofNat 16 w)) else none

end Sys2Proof
end

