-- ==== Sys2Proof/Config.lean ====
section
/-! DEFINITION. What the spec leaves OPEN, as constants with no body: a proof holds for every value of them
(00_scope.md R6; 92_eei_decisions.md D7, D13, D14, D15). -/

namespace Sys2Proof

/-- FREE VALUE (log 1). `EofWord`: what `InRead()` returns once the input has ended (80_interfaces.md R263, D13). -/
opaque Config.eofWord : Word

/-- FREE VALUE (log 2). `PollOracle`: the draw of the n-th availability check (80_interfaces.md R261, D7). -/
opaque Config.pollAnswer : Nat → Bool

/-- FREE VALUE (log 3). `InPrompt`: the bytes the IN trap writes before reading (43_trap_and_system.md R174, D14). -/
opaque Config.inPrompt : List Byte

/-- FREE VALUE (log 3). `HaltMessage`: the bytes the HALT trap writes (43_trap_and_system.md R176, D15). -/
opaque Config.haltMessage : List Byte

end Sys2Proof
end

