-- ==== Sys2Proof/Machine/State.lean ====
section
/-! DEFINITION. The machine's state as plain data, its value at reset, and the reasons a step can stop
(10_state.md; 70_reset_and_hazards.md R230; 60_exceptions.md R201). -/

namespace Sys2Proof.Machine

/-- The 65,536 cells of 16 bits (20_memory.md R40), as the cells that differ from what an unlisted cell reads as:
pairs of an address and its word, addresses strictly rising. Word cells, not bytes: the spec's smallest addressable
unit is the word, and it has no byte order inside the core (R40, R50; log 7). -/
abbrev Memory := List (Nat × Word)

/-- Which invalid opcode aborted (60_exceptions.md R201). -/
inductive InvalidKind where
  /-- IR[15:12] = RTI (43_trap_and_system.md R179). -/
  | rti
  /-- IR[15:12] = RES (43_trap_and_system.md R180). -/
  | res
  deriving DecidableEq, Repr

/-- The reason and info of a fatal abort, the spec's `Fault(reason, info)` (60_exceptions.md R201): `word` is IR and
`pc` the address the word was fetched from (35_execution_cycle.md R85). -/
inductive Abort where
  /-- RTI or RES was dispatched. -/
  | invalidOpcode (kind : InvalidKind) (word pc : Word)
  /-- TRAP with a vector that selects no routine. -/
  | unknownTrapVector (vector : Byte) (word pc : Word)
  deriving DecidableEq, Repr

/-- The controller state (10_state.md R29): HALTED and FAULTED are terminal. -/
inductive Run where
  | running
  | halted
  | faulted (a : Abort)
  deriving DecidableEq, Repr

/-- A trap routine whose cycle has not ended: GETC and IN waiting for a character (35_execution_cycle.md R88), PUTS
and PUTSP in a memory with no terminator (43_trap_and_system.md R173, R175). The MODEL'S OWN (log 4, log 6). -/
inductive Routine where
  | getc
  | inp
  | puts
  | putsp
  deriving DecidableEq, Repr

/-- Everything the spec gives the machine, and two fields of the model's own (`routine`, `polls`). The two keyboard
cells are cells of `mem` (10_state.md R30). -/
structure State where
  /-- R0-R7 (10_state.md R21). -/
  regs : Vector Word 8
  /-- PC: a word address (10_state.md R23). -/
  pc : Word
  /-- IR: the word fetched last (10_state.md R24). -/
  ir : Word
  /-- COND: the condition flags (10_state.md R25). -/
  cond : Word
  /-- The controller (10_state.md R29). -/
  run : Run
  /-- The memory (20_memory.md R40). -/
  mem : Memory
  /-- The bytes of InputStream not consumed yet (80_interfaces.md R260). -/
  input : List Byte
  /-- Whether the stream ends after `input`; if not, it may still grow (80_interfaces.md R261, R262). -/
  inputEnded : Bool
  /-- How many bytes of InputStream were consumed: the position in the stream (10_state.md R31; 80_interfaces.md R268). -/
  consumed : Nat
  /-- The bytes written so far, in order (80_interfaces.md R264). -/
  output : List Byte
  /-- How many of them the last flush made visible (80_interfaces.md R265). -/
  flushed : Nat
  /-- The trap routine the current cycle is still in; none between cycles (log 4, log 6). -/
  routine : Option Routine
  /-- How many availability checks were made: the index of the next draw (80_interfaces.md R261; log 2). -/
  polls : Nat
  deriving DecidableEq, Repr

/-- The machine right after reset, before any image is loaded (10_state.md R34; 70_reset_and_hazards.md R230). The
input stream is an argument of the run; here nothing has been delivered and it may still grow (log 8). -/
def State.reset : State where
  regs := Vector.replicate 8 0x0000
  pc := 0x3000
  ir := 0x0000
  cond := 0x0000
  run := .running
  mem := []
  input := []
  inputEnded := false
  consumed := 0
  output := []
  flushed := 0
  routine := none
  polls := 0

/-- Why a step stops. None of these is raised by an instruction's own meaning: each says that the state has no
further step. -/
inductive Fault where
  /-- `step` raises it in state HALTED, which is terminal (35_execution_cycle.md R80). Safe: the spec has no step
  there, and HALTED is the successful end of a run. -/
  | halted
  /-- `step` raises it in state FAULTED, which is terminal, with the abort that led there (35_execution_cycle.md R80;
  60_exceptions.md R202). Safe: the spec has no step there. -/
  | faulted (a : Abort)
  /-- `step` raises it while GETC or IN waits and the input has neither delivered a byte nor ended: the spec's Hold,
  a wait and not a step (35_execution_cycle.md R88; 80_interfaces.md R267; log 4). Safe: the machine stays where it is
  until `State.deliver` or `State.endInput`. -/
  | hold
  deriving DecidableEq, Repr

/-- Why an instruction has no meaning here. -/
inductive Refusal where
  /-- `exec` would raise it for an instruction the model has no meaning for. Safe. No arm raises it: every
  instruction of the table has its meaning. -/
  | notModelled (mnemonic : String)
  deriving DecidableEq, Repr

end Sys2Proof.Machine
end

