-- ==== Sys2Proof/Machine/Ops.lean ====
section
/-! DEFINITION. The named operations over registers, memory, the two collaborators and the controller
(00_scope.md R11-R13; 20_memory.md R43-R48; 80_interfaces.md R260-R265; 60_exceptions.md R201). -/

namespace Sys2Proof.Machine

/-! ## Registers -/

/-- `x[i]` (00_scope.md R11): no register is hardwired (10_state.md R21). -/
def State.reg (s : State) (i : Reg) : Word := s.regs[i.toNat]'i.isLt

/-- `x[i] <- v` (00_scope.md R11). -/
def State.setReg (s : State) (i : Reg) (v : Word) : State :=
  { s with regs := s.regs.set i.toNat v i.isLt }

/-- `pc <- target` (00_scope.md R11). -/
def State.setPc (s : State) (target : Word) : State := { s with pc := target }

/-- COND overwritten as a whole (10_state.md R27). -/
def State.setCond (s : State) (c : Word) : State := { s with cond := c }

/-! ## The memory array -/

/-- What a cell that is not listed reads as (10_state.md R34, D11). -/
def unlistedWord : Word := 0x0000

/-- `cell[a]` (00_scope.md R12). -/
def Memory.read (m : Memory) (a : Nat) : Word :=
  match m with
  | [] => unlistedWord
  | (k, w) :: rest => if k = a then w else Memory.read rest a

/-- `cell[a] <- v`, keeping the canonical form: addresses rising, nothing listed that an unlisted cell reads as. -/
def Memory.write (m : Memory) (a : Nat) (v : Word) : Memory :=
  match m with
  | [] => if v = unlistedWord then [] else [(a, v)]
  | (k, w) :: rest =>
    if a < k then (if v = unlistedWord then (k, w) :: rest else (a, v) :: (k, w) :: rest)
    else if a = k then (if v = unlistedWord then rest else (a, v) :: rest)
    else (k, w) :: Memory.write rest a v

/-- The canonical form from address `lo` up: strictly rising addresses below 65,536 (20_memory.md R40), and no
listed word that an unlisted cell reads as. -/
def Memory.wfFrom (lo : Nat) (m : Memory) : Bool :=
  match m with
  | [] => true
  | (k, w) :: rest => decide (lo ≤ k) && decide (k < 65536) && decide (w ≠ unlistedWord) && Memory.wfFrom (k + 1) rest

/-- The canonical form of a memory (log 7). -/
def Memory.wf (m : Memory) : Bool := Memory.wfFrom 0 m

/-- `RawRead(a)`: the cell, with no device side effect (00_scope.md R12). -/
def State.cell (s : State) (a : Word) : Word := Memory.read s.mem a.toNat

/-- `MemWrite(a, 1, v)`: a plain store at every address, the device cells included (20_memory.md R43). -/
def State.memWrite (s : State) (a : Word) (v : Word) : State :=
  { s with mem := Memory.write s.mem a.toNat v }

/-! ## Input -/

/-- `zext_8` of a character (00_scope.md R10; 80_interfaces.md R262). -/
def zextByte (b : Byte) : Word := b.setWidth 16

/-- `InRead()`: the next byte zero-extended, or EofWord once the stream has ended; `none` is the wait of a stream
that may still grow (80_interfaces.md R262, R263). -/
def State.inRead (s : State) : Option (Word × State) :=
  match s.input with
  | b :: rest => some (zextByte b, { s with input := rest, consumed := s.consumed + 1 })
  | [] => if s.inputEnded then some (Config.eofWord, s) else none

/-- One more draw of PollOracle was used (80_interfaces.md R261; log 2). -/
def State.countPoll (s : State) : State := { s with polls := s.polls + 1 }

/-! ## The keyboard cells and the polling read -/

/-- Address of the keyboard-status cell (20_memory.md R46, D4). -/
def kbsrAddr : Word := 0xFE00

/-- Address of the keyboard-data cell (20_memory.md R46, D4). -/
def kbdrAddr : Word := 0xFE02

/-- What the status cell holds when input is ready (20_memory.md R45, D5). -/
def kbsrReady : Word := 0x8000

/-- The poll of 20_memory.md R45 when the availability check draws `draw`. The check answers true only if the draw
is true and `InRead()` would not wait: a byte remains, or the stream has ended (80_interfaces.md R261). -/
def State.pollWith (draw : Bool) (s : State) : State :=
  match draw, s.inRead with
  | true, some (c, s') => (s'.memWrite kbsrAddr kbsrReady).memWrite kbdrAddr c
  | _, _ => s.memWrite kbsrAddr 0x0000

/-- The poll of 20_memory.md R45, its draw taken from PollOracle (80_interfaces.md R261; log 2). -/
def State.poll (s : State) : State := s.countPoll.pollWith (Config.pollAnswer s.polls)

/-- `MemRead(a, 1)`: the word read and the state after, which is the state before unless `a` is KBSR_ADDR
(20_memory.md R44, R45). -/
def State.memRead (s : State) (a : Word) : Word × State :=
  if a = kbsrAddr then (s.poll.cell a, s.poll) else (s.cell a, s)

/-! ## Output -/

/-- `Out(b)` for each byte in order (80_interfaces.md R264). -/
def State.out (s : State) (bytes : List Byte) : State := { s with output := s.output ++ bytes }

/-- `Flush()`: every byte appended so far is visible outside (80_interfaces.md R265). -/
def State.flush (s : State) : State := { s with flushed := s.output.length }

/-! ## The cycle controller -/

/-- The cycle is in the middle of a trap routine, or (none) in no routine (log 4, log 6). -/
def State.setRoutine (s : State) (r : Option Routine) : State := { s with routine := r }

/-- `run <- r` (10_state.md R29). -/
def State.setRun (s : State) (r : Run) : State := { s with run := r }

/-- How every trap routine ends: it flushes, and its cycle is over (43_trap_and_system.md R178). -/
def State.endRoutine (s : State) : State := s.flush.setRoutine none

/-- The address the executing word was fetched from (35_execution_cycle.md R85). -/
def State.fetchedFrom (s : State) : Word := s.pc - 1

/-- `raise Fault(reason, info)`, the one exception entry of this hardware: the controller goes to the terminal state
FAULTED with the reason and info, and nothing else changes (60_exceptions.md R201, R202). It saves nothing, goes to
no handler, and there is no return from it (R200, R204, R205). -/
def State.raise (s : State) (a : Abort) : Host.Outcome State Fault Refusal := .next (s.setRun (.faulted a))

/-- Fetch: `IR <- MemRead(PC, 1)`, then `PC <- PC + 1` (35_execution_cycle.md R81, R82). -/
def State.fetch (s : State) : State :=
  { (s.memRead s.pc).2 with ir := (s.memRead s.pc).1, pc := s.pc + 1 }

/-! ## What the host may do between steps -/

/-- The host delivers one more byte, unless the stream has ended (80_interfaces.md R260, R267). -/
def State.deliver (s : State) (b : Byte) : State :=
  if s.inputEnded then s else { s with input := s.input ++ [b] }

/-- The host ends the stream (80_interfaces.md R262, R267). -/
def State.endInput (s : State) : State := { s with inputEnded := true }

end Sys2Proof.Machine
end

