-- ==== Sys2Proof/Machine/Flags.lean ====
section
/-! DEFINITION. The condition flags: their values, the flag update and the BR test (10_state.md R25-R28). -/

namespace Sys2Proof.Machine

/-- POSITIVE, bit 0 (10_state.md R25, D3). -/
def flagP : Word := 0x0001

/-- ZERO, bit 1 (10_state.md R25, D3). -/
def flagZ : Word := 0x0002

/-- NEGATIVE, bit 2 (10_state.md R25, D3). -/
def flagN : Word := 0x0004

/-- The flag of a value: ZERO, NEGATIVE (bit 15 set) or POSITIVE (10_state.md R27). -/
def flagOf (v : Word) : Word :=
  if v = 0x0000 then flagZ else if v.getLsbD 15 then flagN else flagP

/-- `setcc(i)`: COND from the current value of `x[i]` (10_state.md R27). -/
def State.setcc (s : State) (i : Reg) : State := s.setCond (flagOf (s.reg i))

/-- `(cond & COND[2:0]) != 0` (42_control.md R150). -/
def State.condHolds (s : State) (cond : BitVec 3) : Bool :=
  decide (cond &&& s.cond.extractLsb' 0 3 ≠ 0)

end Sys2Proof.Machine
end

