-- ==== Sys2Proof/Machine/Operands.lean ====
section
/-! DEFINITION. Every operand form: sign extension of the immediate fields and the effective addresses
(00_scope.md R9; 30_encoding.md R63; 41_data_movement.md R127). `s.pc` is the fetch-incremented PC. -/

namespace Sys2Proof.Machine

/-- `sext_N(v)` (00_scope.md R9). -/
def sext {n : Nat} (v : BitVec n) : Word := v.signExtend 16

/-- PC-relative address of BR, LD, LDI, LEA, ST and STI: `PC + sext_9` (30_encoding.md R63). -/
def State.pcOffset9 (s : State) (off : BitVec 9) : Word := s.pc + sext off

/-- PC-relative target of JSR: `PC + sext_11` (30_encoding.md R63). -/
def State.pcOffset11 (s : State) (off : BitVec 11) : Word := s.pc + sext off

/-- Base + offset address of LDR and STR: `x[base] + sext_6` (41_data_movement.md R127). -/
def State.baseOffset6 (s : State) (base : Reg) (off : BitVec 6) : Word := s.reg base + sext off

/-- The low character of a word (20_memory.md R50). -/
def lowByte (w : Word) : Byte := w.extractLsb' 0 8

/-- The high character of a word (20_memory.md R50). -/
def highByte (w : Word) : Byte := w.extractLsb' 8 8

end Sys2Proof.Machine
end

