-- ==== Sys2Proof/Machine/Control.lean ====
section
/-! DEFINITION. BR, JMP, RET, JSR, JSRR (42_control.md R150-R156). -/

namespace Sys2Proof.Machine

/-- The implicit link register R7 (10_state.md R22). -/
def linkReg : Reg := 7#3

/-- `x[7] <- PC`: the return address, the address after the call (42_control.md R156). -/
def State.link (s : State) : State := s.setReg linkReg s.pc

/-- `pc <- x[base]` (42_control.md R151). -/
def State.jumpReg (s : State) (base : Reg) : State := s.setPc (s.reg base)

/-- BR (42_control.md R150). -/
def execBr (cond : BitVec 3) (off : BitVec 9) (s : State) : Host.Outcome State Fault Refusal :=
  .next (if s.condHolds cond then s.setPc (s.pcOffset9 off) else s)

/-- JMP (42_control.md R151). -/
def execJmp (base : Reg) (s : State) : Host.Outcome State Fault Refusal :=
  .next (s.jumpReg base)

/-- RET: JMP through R7 (42_control.md R152). -/
def execRet (s : State) : Host.Outcome State Fault Refusal :=
  .next (s.jumpReg linkReg)

/-- JSR (42_control.md R153). -/
def execJsr (off : BitVec 11) (s : State) : Host.Outcome State Fault Refusal :=
  .next (s.link.setPc (s.pcOffset11 off))

/-- JSRR: R7 is written first and the base read after, so `JSRR R7` falls through (42_control.md R154, D10). -/
def execJsrr (base : Reg) (s : State) : Host.Outcome State Fault Refusal :=
  .next (s.link.jumpReg base)

end Sys2Proof.Machine
end

