-- ==== Sys2Proof/Machine/Operate.lean ====
section
/-! DEFINITION. ADD, AND, NOT (40_operate.md R100-R105). -/

namespace Sys2Proof.Machine

/-- `x[DR] <- v; setcc(DR)`: how every instruction with a DR ends (35_execution_cycle.md R86). -/
def State.writeDest (s : State) (dr : Reg) (v : Word) : State := (s.setReg dr v).setcc dr

/-- ADD, register mode (40_operate.md R100). -/
def execAddReg (dr sr1 sr2 : Reg) (s : State) : Host.Outcome State Fault Refusal :=
  .next (s.writeDest dr (s.reg sr1 + s.reg sr2))

/-- ADD, immediate mode (40_operate.md R101). -/
def execAddImm (dr sr1 : Reg) (imm : BitVec 5) (s : State) : Host.Outcome State Fault Refusal :=
  .next (s.writeDest dr (s.reg sr1 + sext imm))

/-- AND, register mode (40_operate.md R102). -/
def execAndReg (dr sr1 sr2 : Reg) (s : State) : Host.Outcome State Fault Refusal :=
  .next (s.writeDest dr (s.reg sr1 &&& s.reg sr2))

/-- AND, immediate mode (40_operate.md R103). -/
def execAndImm (dr sr1 : Reg) (imm : BitVec 5) (s : State) : Host.Outcome State Fault Refusal :=
  .next (s.writeDest dr (s.reg sr1 &&& sext imm))

/-- NOT (40_operate.md R104). -/
def execNot (dr sr : Reg) (s : State) : Host.Outcome State Fault Refusal :=
  .next (s.writeDest dr (~~~ s.reg sr))

end Sys2Proof.Machine
end

