-- ==== Sys2Proof/Machine/DataMovement.lean ====
section
/-! DEFINITION. LD, LDI, LDR, LEA, ST, STI, STR (41_data_movement.md R120-R127). -/

namespace Sys2Proof.Machine

/-- `x[DR] <- MemRead(ea, 1); setcc(DR)` (41_data_movement.md R120-R122). -/
def State.load (s : State) (dr : Reg) (ea : Word) : State :=
  (s.memRead ea).2.writeDest dr (s.memRead ea).1

/-- LD (41_data_movement.md R120). -/
def execLd (dr : Reg) (off : BitVec 9) (s : State) : Host.Outcome State Fault Refusal :=
  .next (s.load dr (s.pcOffset9 off))

/-- LDI: the pointer read, then the datum read in the state after it (41_data_movement.md R121). -/
def execLdi (dr : Reg) (off : BitVec 9) (s : State) : Host.Outcome State Fault Refusal :=
  .next ((s.memRead (s.pcOffset9 off)).2.load dr (s.memRead (s.pcOffset9 off)).1)

/-- LDR (41_data_movement.md R122). -/
def execLdr (dr base : Reg) (off : BitVec 6) (s : State) : Host.Outcome State Fault Refusal :=
  .next (s.load dr (s.baseOffset6 base off))

/-- LEA: the address itself, no memory access (41_data_movement.md R123). -/
def execLea (dr : Reg) (off : BitVec 9) (s : State) : Host.Outcome State Fault Refusal :=
  .next (s.writeDest dr (s.pcOffset9 off))

/-- ST (41_data_movement.md R124). -/
def execSt (sr : Reg) (off : BitVec 9) (s : State) : Host.Outcome State Fault Refusal :=
  .next (s.memWrite (s.pcOffset9 off) (s.reg sr))

/-- STI: the pointer read, then the store in the state after it (41_data_movement.md R125). -/
def execSti (sr : Reg) (off : BitVec 9) (s : State) : Host.Outcome State Fault Refusal :=
  .next ((s.memRead (s.pcOffset9 off)).2.memWrite (s.memRead (s.pcOffset9 off)).1 (s.reg sr))

/-- STR (41_data_movement.md R126). -/
def execStr (sr base : Reg) (off : BitVec 6) (s : State) : Host.Outcome State Fault Refusal :=
  .next (s.memWrite (s.baseOffset6 base off) (s.reg sr))

end Sys2Proof.Machine
end

