-- ==== Sys2Proof/Machine/Trap.lean ====
section
/-! DEFINITION. The six trap routines, the unknown vector, RTI and RES, and the continuation of a routine whose cycle
has not ended (43_trap_and_system.md R170-R180; 35_execution_cycle.md R88). -/

namespace Sys2Proof.Machine

/-! ## The routines' bodies -/

/-- `x[0] <- c; setcc(0); Flush()` (43_trap_and_system.md R171, R174). -/
def State.takeChar (s : State) (c : Word) : State := (s.writeDest 0#3 c).endRoutine

/-- GETC from its read on: it completes with the character, or it holds (43_trap_and_system.md R171). -/
def State.getcBody (s : State) : State :=
  match s.inRead with
  | some (c, s') => s'.takeChar c
  | none => s.setRoutine (some .getc)

/-- IN from its read on, the prompt being out: it echoes and completes, or it holds (43_trap_and_system.md R174). -/
def State.inBody (s : State) : State :=
  match s.inRead with
  | some (c, s') => (s'.out [lowByte c]).takeChar c
  | none => s.setRoutine (some .inp)

/-- The words of the string at `a` before its zero word, at most `n` of them; addresses wrap
(43_trap_and_system.md R173, D12). -/
def stringWords (s : State) (a : Word) (n : Nat) : List Word :=
  match n with
  | 0 => []
  | k + 1 => if s.cell a = 0x0000 then [] else s.cell a :: stringWords s (a + 1) k

/-- One lap of the whole address space: a string longer than this has no terminator (43_trap_and_system.md R173). -/
def lap : Nat := 65536

/-- PUTS: the low byte of each word (43_trap_and_system.md R173). -/
def putsBytes (ws : List Word) : List Byte := ws.map lowByte

/-- PUTSP: the low byte of each word, then its high byte if nonzero (43_trap_and_system.md R175). -/
def putspBytes (ws : List Word) : List Byte :=
  ws.flatMap fun w => if highByte w = 0 then [lowByte w] else [lowByte w, highByte w]

/-- The string at R0 is written, `bytes` of its words. With no zero word in a whole lap the routine never ends: the
lap's bytes are out, and the cycle is still in the routine, at the same address (43_trap_and_system.md R173, R175;
log 6). -/
def State.stringBody (r : Routine) (bytes : List Word → List Byte) (s : State) : State :=
  if (stringWords s (s.reg 0#3) lap).length < lap then
    (s.out (bytes (stringWords s (s.reg 0#3) lap))).endRoutine
  else
    (s.out (bytes (stringWords s (s.reg 0#3) lap))).setRoutine (some r)

/-! ## The meanings -/

/-- TRAP GETC (43_trap_and_system.md R171). -/
def execTrapGetc (s : State) : Host.Outcome State Fault Refusal := .next s.getcBody

/-- TRAP OUT (43_trap_and_system.md R172). -/
def execTrapOut (s : State) : Host.Outcome State Fault Refusal :=
  .next (s.out [lowByte (s.reg 0#3)]).endRoutine

/-- TRAP PUTS (43_trap_and_system.md R173). -/
def execTrapPuts (s : State) : Host.Outcome State Fault Refusal := .next (s.stringBody .puts putsBytes)

/-- TRAP IN (43_trap_and_system.md R174). -/
def execTrapIn (s : State) : Host.Outcome State Fault Refusal := .next (s.out Config.inPrompt).inBody

/-- TRAP PUTSP (43_trap_and_system.md R175). -/
def execTrapPutsp (s : State) : Host.Outcome State Fault Refusal := .next (s.stringBody .putsp putspBytes)

/-- TRAP HALT (43_trap_and_system.md R176). -/
def execTrapHalt (s : State) : Host.Outcome State Fault Refusal :=
  .next ((s.out Config.haltMessage).endRoutine.setRun .halted)

/-- TRAP with any other vector (43_trap_and_system.md R177, D9). -/
def execTrapOther (v : Byte) (s : State) : Host.Outcome State Fault Refusal :=
  s.raise (.unknownTrapVector v s.ir s.fetchedFrom)

/-- RTI (43_trap_and_system.md R179). -/
def execRti (s : State) : Host.Outcome State Fault Refusal :=
  s.raise (.invalidOpcode .rti s.ir s.fetchedFrom)

/-- RES (43_trap_and_system.md R180). -/
def execRes (s : State) : Host.Outcome State Fault Refusal :=
  s.raise (.invalidOpcode .res s.ir s.fetchedFrom)

/-! ## The rest of a cycle that has not ended -/

/-- GETC or IN goes on when `InRead()` can answer, and stops with `Fault.hold` while it waits (35_execution_cycle.md
R88; log 4). PUTS and PUTSP write one more lap (log 6). -/
def resume (r : Routine) (s : State) : Host.Outcome State Fault Refusal :=
  match r with
  | .getc => if s.inRead.isSome then .next s.getcBody else .fault .hold
  | .inp => if s.inRead.isSome then .next s.inBody else .fault .hold
  | .puts => .next (s.stringBody .puts putsBytes)
  | .putsp => .next (s.stringBody .putsp putspBytes)

end Sys2Proof.Machine
end

