-- ==== Sys2Proof/Machine/Step.lean ====
section
/-! DEFINITION. One step of the cycle controller (35_execution_cycle.md R80-R90). -/

namespace Sys2Proof.Machine

/-- `Step(s)`: while RUNNING, fetch, decode and execute one instruction (35_execution_cycle.md R85), or go on with a
trap routine whose cycle has not ended (R88; log 4, log 6). In HALTED and FAULTED there is no step (R80). -/
def step (s : State) : Host.Outcome State Fault Refusal :=
  match s.run with
  | .halted => .fault .halted
  | .faulted a => .fault (.faulted a)
  | .running =>
    match s.routine with
    | some r => resume r s
    | none => exec (decode s.fetch.ir) s.fetch

/-- The word `w` stored where the next fetch reads it, in a machine that is at a fetch: RUNNING and in no routine.
(At PC = KBSR_ADDR the fetch's own poll overwrites the cell, 20_memory.md R45; reset's PC is 0x3000.) See log 9. -/
def State.withFetchWord (s : State) (_nbits w : Nat) : State :=
  ((s.memWrite s.pc (BitVec.ofNat 16 w)).setRoutine none).setRun .running

end Sys2Proof.Machine
end

