-- ==== Sys2Proof/Machine/Loader.lean ====
section
/-! DEFINITION. What happens before the first cycle: image files are read and their words loaded
(70_reset_and_hazards.md R231-R234). -/

namespace Sys2Proof.Machine

/-- An image: where loading begins, and the words (70_reset_and_hazards.md R233). -/
structure Image where
  origin : Word
  words : List Word
  deriving DecidableEq, Repr

/-- Big-endian words of a file's bytes; an odd number of bytes is refused (70_reset_and_hazards.md R233, D16). -/
def wordsOfBytes (bytes : List Byte) : Option (List Word) :=
  match bytes with
  | [] => some []
  | [_] => none
  | hi :: lo :: rest => (wordsOfBytes rest).map fun ws => (hi ++ lo) :: ws

/-- An image file: the origin word, then the program words. A file with no origin word is refused (log 16). -/
def parseImage (bytes : List Byte) : Option Image :=
  match wordsOfBytes bytes with
  | some (origin :: words) => some ⟨origin, words⟩
  | _ => none

/-- `origin + length <= 0x10000` (70_reset_and_hazards.md R233, D16). -/
def Image.fits (i : Image) : Bool := decide (i.origin.toNat + i.words.length ≤ 0x10000)

/-- Words to consecutive cells from address `a` (70_reset_and_hazards.md R233). -/
def State.loadWords (s : State) (a : Word) (words : List Word) : State :=
  match words with
  | [] => s
  | w :: rest => (s.memWrite a w).loadWords (a + 1) rest

/-- One image loaded. -/
def State.loadImage (s : State) (i : Image) : State := s.loadWords i.origin i.words

/-- Images in order: later ones overwrite earlier ones (70_reset_and_hazards.md R232). -/
def State.loadImages (s : State) (images : List Image) : State := images.foldl State.loadImage s

/-- The start of a run: the reset state with the images loaded and its input stream attached; refused if an image
does not fit (70_reset_and_hazards.md R230-R233; 80_interfaces.md R260, R267). -/
def launch (images : List Image) (input : List Byte) (ended : Bool) : Option State :=
  if images.all Image.fits then
    some { State.reset.loadImages images with input := input, inputEnded := ended }
  else none

/-- The same from image files; refused if a file is no image (70_reset_and_hazards.md R233). -/
def launchFiles (files : List (List Byte)) (input : List Byte) (ended : Bool) : Option State :=
  (files.mapM parseImage).bind fun images => launch images input ended

end Sys2Proof.Machine
end

