-- ==== Sys2Proof/Safety.lean ====
section
/-! DEFINITION. What claims about runs are stated in: the states a run can reach, the invariant of those states, how a
run ends, and what is observed of it (80_interfaces.md R260-R268; 10_state.md R25, R28, R29). -/

namespace Sys2Proof.Machine

/-- What holds of every state a run reaches. -/
structure State.Inv (s : State) : Prop where
  /-- The memory is in canonical form, with no cell beyond 0xFFFF (20_memory.md R40; log 7). -/
  memWf : Memory.wf s.mem = true
  /-- COND holds one flag, or none before the first flag write (10_state.md R25, R26). -/
  condLegal : s.cond = 0x0000 ∨ s.cond = flagP ∨ s.cond = flagZ ∨ s.cond = flagN
  /-- No more was flushed than was written (80_interfaces.md R265). -/
  flushedLe : s.flushed ≤ s.output.length
  /-- Between cycles everything written is flushed (43_trap_and_system.md R178). -/
  flushedBetweenCycles : s.routine = none → s.flushed = s.output.length
  /-- Only a running machine is inside a routine (35_execution_cycle.md R88). -/
  routineRuns : s.run ≠ .running → s.routine = none

/-- One event of a run: a step, or one of the host's moves on the input between steps (80_interfaces.md R267; log 14). -/
inductive Moves (s : State) : State → Prop where
  | stepped {t : State} : step s = .next t → Moves s t
  | delivered (b : Byte) : Moves s (s.deliver b)
  | inputEnded : Moves s s.endInput

/-- Any number of events lead from `s` to `t`. -/
def Reaches (s t : State) : Prop := Relation.ReflTransGen Moves s t

/-- The states of all runs: a launch, then any events (70_reset_and_hazards.md R230-R232; 80_interfaces.md R267). -/
def Reachable (t : State) : Prop :=
  ∃ images input ended s, launch images input ended = some s ∧ Reaches s t

/-- The machine is between cycles and will fetch next (35_execution_cycle.md R80, R87). -/
def State.atFetch (s : State) : Prop := s.run = .running ∧ s.routine = none

/-- `InRead()` would answer, without a wait: a byte remains or the stream has ended (80_interfaces.md R262). -/
def State.inputReady (s : State) : Prop := s.input ≠ [] ∨ s.inputEnded = true

/-! ## The host's stop -/

/-- A moment at which the host may stop a run that is in `s`, with the bytes the rules have produced and consumed by
then (80_interfaces.md R266: "at any time"; 60_exceptions.md R203; log 15). None exists in HALTED or FAULTED. -/
inductive StopPoint (s : State) : List Byte → Nat → Prop where
  /-- Between two steps: at a cycle boundary, in a hold, or inside a routine that never ends. -/
  | between : s.run = .running → StopPoint s s.output s.consumed
  /-- Inside the cycle that leads to `t`, any part of its bytes being out and any part of its input consumed. The last
  byte of a cycle that reads is IN's echo, which comes after the read (43_trap_and_system.md R174). -/
  | inside {t : State} {produced : List Byte} {consumed : Nat} : step s = .next t →
      s.output <+: produced → produced <+: t.output → s.consumed ≤ consumed → consumed ≤ t.consumed →
      (produced = t.output → consumed < t.consumed → t.output = s.output) → StopPoint s produced consumed

/-- What may be observed when the host stops a run that is in `s`: any prefix of the bytes produced by then, and the
input consumed by then (80_interfaces.md R266, D18; log 15). -/
def StoppedOutput (s : State) (o : List Byte) (consumed : Nat) : Prop :=
  ∃ produced, StopPoint s produced consumed ∧ o <+: produced

/-- The stop in `s` that showed `o` lost only bytes written between flushes (80_interfaces.md R265, R266). Every trap
flushes only at the end of its cycle, so `s.flushed` is the last flush. No run is bound to this: a claim that needs it
names it as a premise (log 15). -/
def OnlyUnflushedLost (s : State) (o : List Byte) : Prop := s.flushed ≤ o.length

/-! ## The observation of a run -/

/-- How a run ends (80_interfaces.md R268). -/
inductive Ending where
  | halted
  | faulted (a : Abort)
  /-- Stopped by the host: neither HALTED nor FAULTED (60_exceptions.md R206). -/
  | stopped
  /-- Never ending: an endless run, or a hold that is never lifted. -/
  | endless
  deriving DecidableEq, Repr

/-- The final register file and memory (80_interfaces.md R268). -/
structure Final where
  regs : Vector Word 8
  pc : Word
  ir : Word
  cond : Word
  mem : Memory
  deriving DecidableEq, Repr

/-- The register file and memory of a state. -/
def State.final (s : State) : Final := { regs := s.regs, pc := s.pc, ir := s.ir, cond := s.cond, mem := s.mem }

/-- The four things that are observed of a run (80_interfaces.md R268). An endless run may write and consume without
end, so the output is a finite or infinite sequence, and the amount consumed a number or infinity. -/
structure Observation where
  ending : Ending
  output : Stream'.Seq Byte
  /-- The final registers and memory, for HALTED and FAULTED only. -/
  final : Option Final
  consumed : ℕ∞

/-- `h` is a run from `s` that never ends: it stays RUNNING, every event is the machine's or the host's, a wait lasts as
long as the host delivers nothing, and the host's moves never keep the machine from its steps (35_execution_cycle.md R80,
R88; 80_interfaces.md R267). -/
structure NeverEnds (s : State) (h : Nat → State) : Prop where
  start : h 0 = s
  running : ∀ n, (h n).run = .running
  event : ∀ n, Moves (h n) (h (n + 1)) ∨ (step (h n) = .fault .hold ∧ h (n + 1) = h n)
  active : ∀ n, ∃ m, n ≤ m ∧ (step (h m) = .next (h (m + 1)) ∨ step (h m) = .fault .hold)

/-- The observations of the runs that start in `s` (80_interfaces.md R268). -/
inductive Observed (s : State) : Observation → Prop where
  | halted {t : State} : Reaches s t → t.run = .halted →
      Observed s ⟨.halted, t.output, some t.final, t.consumed⟩
  | faulted {t : State} {a : Abort} : Reaches s t → t.run = .faulted a →
      Observed s ⟨.faulted a, t.output, some t.final, t.consumed⟩
  | stopped {t : State} {o : List Byte} {consumed : Nat} : Reaches s t → StoppedOutput t o consumed →
      Observed s ⟨.stopped, o, none, consumed⟩
  | endless {h : Nat → State} {o : Stream'.Seq Byte} : NeverEnds s h →
      (∀ k b, o.get? k = some b ↔ ∃ n, (h n).output[k]? = some b) →
      Observed s ⟨.endless, o, none, ⨆ n, ((h n).consumed : ℕ∞)⟩

/-- The claim that a program succeeds: EVERY run from `s`, whatever the host does with the input, ends HALTED with `post`
of its output and its final registers and memory (35_execution_cycle.md R88; 80_interfaces.md R268). FAULTED, a hold that
is never lifted and an endless run all refute it; a host stop ends a run from outside and says nothing of it (R266; log
15). A proof holds for every poll draw and every EofWord, which have no value in Lean. -/
structure HaltsWith (s : State) (post : List Byte → Final → Prop) : Prop where
  ends : ∀ h, ¬ NeverEnds s h
  noFault : ∀ t a, Reaches s t → t.run ≠ .faulted a
  halted : ∀ t, Reaches s t → t.run = .halted → post t.output t.final

end Sys2Proof.Machine
end

