-- ==== Sys2Proof/WellFormed.lean ====
section
/-! DEFINITION. Which instruction terms a word can decode to. Every field's width is in its type, so only two checks
remain: two rows of spec/opcode_table.json hold words that another row names first. -/

namespace Sys2Proof

/-- `jmp` does not spell the words of RET (42_control.md R152), and `trapOther` does not carry one of the six
vectors that have a routine of their own (43_trap_and_system.md R177). -/
def Instr.wf : Instr → Bool
  | .jmp base => decide (base ≠ 7#3)
  | .trapOther v => !TrapVector.all.contains v
  | .br _ _ | .addReg _ _ _ | .addImm _ _ _ | .ld _ _ | .st _ _ | .jsr _ | .jsrr _ | .andReg _ _ _
  | .andImm _ _ _ | .ldr _ _ _ | .str _ _ _ | .rti | .not _ _ | .ldi _ _ | .sti _ _ | .ret | .res | .lea _ _
  | .trapGetc | .trapOut | .trapPuts | .trapIn | .trapPutsp | .trapHalt => true

end Sys2Proof
end

