-- ==== Sys2Proof/Certificates/Slice0/Obligations.lean ====
section
/-! DEFINITION. The statements for the provers. Each is about the machine, from a numbered rule of spec/ or from the
sections its entry in OBLIGATIONS.json cites. `Sys2Proof.Spec` holds the vocabulary they share. -/

namespace Sys2Proof.Spec

open Sys2Proof.Machine

/-- From `s` to `t` an instruction wrote `v` to DR and set the flags from it, and did nothing else: every other
register and every other field of the state is as it was (10_state.md R27; 35_execution_cycle.md R86). -/
def WritesDest (s t : State) (dr : Reg) (v : Word) : Prop :=
  t.reg dr = v ∧ (∀ r, r ≠ dr → t.reg r = s.reg r) ∧
  t.cond = (if v = 0 then flagZ else if 0x8000 ≤ v.toNat then flagN else flagP) ∧
  { t with regs := s.regs, cond := s.cond } = s

/-- From `s` to `t` an instruction stored `v` at `a`, and did nothing else: every other cell and every other field of
the state is as it was (20_memory.md R43). -/
def Stores (s t : State) (a v : Word) : Prop :=
  (Memory.wf s.mem = true → ∀ b, t.cell b = if b = a then v else s.cell b) ∧ { t with mem := s.mem } = s

/-- The state after `MemRead(a, 1)`: only a read of KBSR_ADDR changes it, by its poll (20_memory.md R44, R45). -/
def afterRead (s : State) (a : Word) : State := if a = kbsrAddr then s.poll else s

/-- From `s` to `t` a trap routine appended `bytes` to the output, flushed, and ended its cycle; of R0-R7, COND and
the input nothing is said here, and every other field of the state is as it was (43_trap_and_system.md R178). -/
def EndsTrap (s t : State) (bytes : List Byte) : Prop :=
  t.output = s.output ++ bytes ∧ t.flushed = t.output.length ∧ t.routine = none ∧
  { t with regs := s.regs, cond := s.cond, input := s.input, consumed := s.consumed, output := s.output,
           flushed := s.flushed, routine := s.routine } = s

/-- From `s` to `t` a trap routine put the character `c` in R0, set the flags from it, and left the other registers
alone (43_trap_and_system.md R171, R174). -/
def TakesChar (s t : State) (c : Word) : Prop :=
  t.reg 0#3 = c ∧ (∀ r, r ≠ 0#3 → t.reg r = s.reg r) ∧
  t.cond = (if c = 0 then flagZ else if 0x8000 ≤ c.toNat then flagN else flagP)

/-- The registers, the flags and the input are as they were. -/
def KeepsRegsAndInput (s t : State) : Prop :=
  t.regs = s.regs ∧ t.cond = s.cond ∧ t.input = s.input ∧ t.consumed = s.consumed

/-- The register an instruction may write (10_state.md R21). -/
def destReg : Instr → Option Reg
  | .addReg dr _ _ | .addImm dr _ _ | .andReg dr _ _ | .andImm dr _ _ | .not dr _ | .ld dr _ | .ldi dr _
  | .ldr dr _ _ | .lea dr _ => some dr
  | .jsr _ | .jsrr _ => some 7#3
  | .trapGetc | .trapIn => some 0#3
  | .br _ _ | .st _ _ | .sti _ _ | .str _ _ _ | .jmp _ | .ret | .rti | .res | .trapOut | .trapPuts | .trapPutsp
  | .trapHalt | .trapOther _ => none

/-- The register an instruction sets the flags from (10_state.md R28). -/
def flagReg : Instr → Option Reg
  | .addReg dr _ _ | .addImm dr _ _ | .andReg dr _ _ | .andImm dr _ _ | .not dr _ | .ld dr _ | .ldi dr _
  | .ldr dr _ _ | .lea dr _ => some dr
  | .trapGetc | .trapIn => some 0#3
  | .jsr _ | .jsrr _ | .br _ _ | .st _ _ | .sti _ _ | .str _ _ _ | .jmp _ | .ret | .rti | .res | .trapOut
  | .trapPuts | .trapPutsp | .trapHalt | .trapOther _ => none

/-- The instructions that write PC, beyond the fetch (10_state.md R23). -/
def transfersControl : Instr → Bool
  | .br _ _ | .jmp _ | .ret | .jsr _ | .jsrr _ => true
  | .addReg _ _ _ | .addImm _ _ _ | .andReg _ _ _ | .andImm _ _ _ | .not _ _ | .ld _ _ | .ldi _ _ | .ldr _ _ _
  | .lea _ _ | .st _ _ | .sti _ _ | .str _ _ _ | .rti | .res | .trapGetc | .trapOut | .trapPuts | .trapIn
  | .trapPutsp | .trapHalt | .trapOther _ => false

/-- The addresses an instruction reads through `MemRead`, in order (20_memory.md R48). -/
def reads (i : Instr) (s : State) : List Word :=
  match i with
  | .ld _ off => [s.pcOffset9 off]
  | .ldi _ off => [s.pcOffset9 off, (s.memRead (s.pcOffset9 off)).1]
  | .ldr _ base off => [s.baseOffset6 base off]
  | .sti _ off => [s.pcOffset9 off]
  | .addReg _ _ _ | .addImm _ _ _ | .andReg _ _ _ | .andImm _ _ _ | .not _ _ | .lea _ _ | .st _ _ | .str _ _ _
  | .br _ _ | .jmp _ | .ret | .jsr _ | .jsrr _ | .rti | .res | .trapGetc | .trapOut | .trapPuts | .trapIn
  | .trapPutsp | .trapHalt | .trapOther _ => []

/-- The address an instruction stores to (41_data_movement.md R124-R126). -/
def storesTo (i : Instr) (s : State) : Option Word :=
  match i with
  | .st _ off => some (s.pcOffset9 off)
  | .sti _ off => some (s.memRead (s.pcOffset9 off)).1
  | .str _ base off => some (s.baseOffset6 base off)
  | .addReg _ _ _ | .addImm _ _ _ | .andReg _ _ _ | .andImm _ _ _ | .not _ _ | .lea _ _ | .ld _ _ | .ldi _ _
  | .ldr _ _ _ | .br _ _ | .jmp _ | .ret | .jsr _ | .jsrr _ | .rti | .res | .trapGetc | .trapOut | .trapPuts
  | .trapIn | .trapPutsp | .trapHalt | .trapOther _ => none

/-- The controller's state after an instruction (10_state.md R29; 60_exceptions.md R201, R203). -/
def runAfter (i : Instr) (s : State) : Run :=
  match i with
  | .trapHalt => .halted
  | .rti => .faulted (.invalidOpcode .rti s.ir (s.pc - 1))
  | .res => .faulted (.invalidOpcode .res s.ir (s.pc - 1))
  | .trapOther v => .faulted (.unknownTrapVector v s.ir (s.pc - 1))
  | .addReg _ _ _ | .addImm _ _ _ | .andReg _ _ _ | .andImm _ _ _ | .not _ _ | .lea _ _ | .ld _ _ | .ldi _ _
  | .ldr _ _ _ | .st _ _ | .sti _ _ | .str _ _ _ | .br _ _ | .jmp _ | .ret | .jsr _ | .jsrr _ | .trapGetc
  | .trapOut | .trapPuts | .trapIn | .trapPutsp => s.run

/-- The trap routines that write to the output (80_interfaces.md R264). -/
def writesOutput : Instr → Bool
  | .trapOut | .trapPuts | .trapIn | .trapPutsp | .trapHalt => true
  | .addReg _ _ _ | .addImm _ _ _ | .andReg _ _ _ | .andImm _ _ _ | .not _ _ | .lea _ _ | .ld _ _ | .ldi _ _
  | .ldr _ _ _ | .st _ _ | .sti _ _ | .str _ _ _ | .br _ _ | .jmp _ | .ret | .jsr _ | .jsrr _ | .rti | .res
  | .trapGetc | .trapOther _ => false

/-- The six trap routines (43_trap_and_system.md R170). -/
def isTrapRoutine : Instr → Bool
  | .trapGetc | .trapOut | .trapPuts | .trapIn | .trapPutsp | .trapHalt => true
  | .addReg _ _ _ | .addImm _ _ _ | .andReg _ _ _ | .andImm _ _ _ | .not _ _ | .lea _ _ | .ld _ _ | .ldi _ _
  | .ldr _ _ _ | .st _ _ | .sti _ _ | .str _ _ _ | .br _ _ | .jmp _ | .ret | .jsr _ | .jsrr _ | .rti | .res
  | .trapOther _ => false

/-- The k-th word of the string at R0; its address wraps (43_trap_and_system.md R173). -/
def stringWord (s : State) (k : Nat) : Word := s.cell (s.reg 0#3 + BitVec.ofNat 16 k)

/-- The string at R0 has `n` words before its zero word (43_trap_and_system.md R173). -/
def IsString (s : State) (n : Nat) : Prop :=
  n < 65536 ∧ (∀ k, k < n → stringWord s k ≠ 0) ∧ stringWord s n = 0

/-- What PUTS writes of the first `n` words: the low byte of each (43_trap_and_system.md R173). -/
def putsOutput (s : State) (n : Nat) : List Byte :=
  (List.range n).map fun k => (stringWord s k).setWidth 8

/-- What PUTSP writes of the first `n` words: the low byte of each, then its high byte if nonzero
(43_trap_and_system.md R175). -/
def putspOutput (s : State) (n : Nat) : List Byte :=
  (List.range n).flatMap fun k =>
    if (stringWord s k).toNat / 256 = 0 then [(stringWord s k).setWidth 8]
    else [(stringWord s k).setWidth 8, BitVec.ofNat 8 ((stringWord s k).toNat / 256)]

/-- The word an image puts at address `a`, if it covers it (70_reset_and_hazards.md R233). -/
def imageWord (i : Image) (a : Word) : Option Word :=
  if i.origin.toNat ≤ a.toNat then i.words[a.toNat - i.origin.toNat]? else none

/-- The bytes of words in an image file: high byte first (70_reset_and_hazards.md R233). -/
def bigEndian (ws : List Word) : List Byte :=
  ws.flatMap fun w => [BitVec.ofNat 8 (w.toNat / 256), BitVec.ofNat 8 w.toNat]

end Sys2Proof.Spec

open Sys2Proof Sys2Proof.Machine

/-- O1. sext_N gives the 16-bit word with the same two's-complement value. 00_scope.md R9: sign extension, and that it keeps the two's-complement value. -/
def Obligations.SignExtendIsTwosComplement : Prop :=
  ∀ (n : Nat) (v : BitVec n), 1 ≤ n → n ≤ 16 →
    sext v = (if v.getLsbD (n - 1) then v.setWidth 16 ||| (0xFFFF#16 <<< n) else v.setWidth 16) ∧
    (sext v).toInt = v.toInt

/-- O2. Effective addresses and the PC increment are exact sums taken modulo 2^16. 20_memory.md R42: every effective address is computed in 16 bits and wraps. -/
def Obligations.EffectiveAddressesWrap : Prop :=
  ∀ s : State,
    (∀ off, s.pcOffset9 off = BitVec.ofInt 16 (s.pc.toNat + off.toInt)) ∧
    (∀ off, s.pcOffset11 off = BitVec.ofInt 16 (s.pc.toNat + off.toInt)) ∧
    (∀ base off, s.baseOffset6 base off = BitVec.ofInt 16 ((s.reg base).toNat + off.toInt)) ∧
    (∀ sr off, Spec.storesTo (.sti sr off) s = some ((Spec.afterRead s (s.pcOffset9 off)).cell (s.pcOffset9 off))) ∧
    s.fetch.pc = BitVec.ofNat 16 (s.pc.toNat + 1)

/-- O3. What reset leaves: registers 0, PC 0x3000, RUNNING, every cell 0 (D11, the spec's decision). The reset values of 10_state.md R34; the memory's 0x0000 is the spec's own decision D11 (log 11). -/
def Obligations.ResetValues : Prop :=
  (∀ r, State.reset.reg r = 0) ∧ State.reset.ir = 0 ∧ State.reset.cond = 0 ∧ State.reset.pc = 0x3000 ∧
    State.reset.atFetch ∧ (∀ a, State.reset.cell a = 0) ∧ State.reset.consumed = 0 ∧ State.reset.output = []

/-- O4. setcc overwrites COND with the one flag of the register's value (bit values: D3, log 10). 10_state.md R27; that P, Z and N stand at bits 0, 1 and 2 is the spec's decision D3 (log 10). -/
def Obligations.SetccChoosesTheFlag : Prop :=
  ∀ (s : State) (i : Reg),
    (s.setcc i).cond =
      (if (s.reg i).toNat = 0 then 0x0002 else if 0x8000 ≤ (s.reg i).toNat then 0x0004 else 0x0001) ∧
    (∃ k, ∀ j, (s.setcc i).cond.getLsbD j = decide (j = k)) ∧
    { s.setcc i with cond := s.cond } = s

/-- O5. MemWrite sets its cell and does nothing else, at every address. 20_memory.md R43: a store is plain at every address. -/
def Obligations.StoreWritesOneCell : Prop :=
  ∀ (s : State) (a v : Word), Spec.Stores s (s.memWrite a v) a v

/-- O6. MemRead of any address but KBSR_ADDR returns the cell and changes nothing. 20_memory.md R44: only the keyboard-status cell has a read side effect. -/
def Obligations.OrdinaryReadHasNoEffect : Prop :=
  ∀ (s : State) (a : Word), a ≠ kbsrAddr → s.memRead a = (s.cell a, s)

/-- O7. MemRead(KBSR_ADDR) polls; what a poll does for either draw (D5, D6, D7 are the spec's decisions). 20_memory.md R45 and 80_interfaces.md R261; the ready value 0x8000, that the character is consumed, and the draw are the spec's decisions D5, D6 and D7 (log 2, log 11). -/
def Obligations.StatusReadPollsTheKeyboard : Prop :=
  (∀ s : State, ∃ draw,
      s.memRead kbsrAddr = ((s.countPoll.pollWith draw).cell kbsrAddr, s.countPoll.pollWith draw)) ∧
    ∀ (draw : Bool) (s : State), Memory.wf s.mem = true →
      (s.pollWith draw).cell kbsrAddr = (if draw && (!s.input.isEmpty || s.inputEnded) then 0x8000 else 0x0000) ∧
      (s.pollWith draw).cell kbdrAddr =
        (if draw && (!s.input.isEmpty || s.inputEnded) then (s.input.head?.map (BitVec.setWidth 16)).getD Config.eofWord
         else s.cell kbdrAddr) ∧
      (∀ a, a ≠ kbsrAddr → a ≠ kbdrAddr → (s.pollWith draw).cell a = s.cell a) ∧
      (s.pollWith draw).input = (if draw then s.input.tail else s.input) ∧
      (s.pollWith draw).consumed = (if draw && !s.input.isEmpty then s.consumed + 1 else s.consumed) ∧
      { s.pollWith draw with mem := s.mem, input := s.input, consumed := s.consumed } = s

/-- O8. A store to a cell is what the next fetch of that cell reads. 20_memory.md R58 (an inference the spec marks [derived]): fetch is coherent with stores. -/
def Obligations.StoreIsSeenByTheNextFetch : Prop :=
  ∀ (s : State) (a v : Word), Memory.wf s.mem = true → a ≠ kbsrAddr →
    ((s.memWrite a v).setPc a).fetch.ir = v

/-- O9. ADD register: DR <- SR1 + SR2 mod 2^16, flags from DR, nothing else. 40_operate.md R100; the number of the opcode is stated in WordsOfTheSpecDecode. -/
def Obligations.AddRegisterWritesSum : Prop :=
  (∀ w : Word, opcodeOf w = .add → w.getLsbD 5 = false → decode w = .addReg (field w 9 3) (field w 6 3) (field w 0 3)) ∧
    ∀ (dr sr1 sr2 : Reg) (s : State), ∃ t, exec (.addReg dr sr1 sr2) s = .next t ∧
      Spec.WritesDest s t dr (BitVec.ofNat 16 ((s.reg sr1).toNat + (s.reg sr2).toNat))

/-- O10. ADD immediate: DR <- SR1 + sext_5(imm5) mod 2^16, flags from DR, nothing else. 40_operate.md R101; the number of the opcode is stated in WordsOfTheSpecDecode. -/
def Obligations.AddImmediateWritesSum : Prop :=
  (∀ w : Word, opcodeOf w = .add → w.getLsbD 5 = true → decode w = .addImm (field w 9 3) (field w 6 3) (field w 0 5)) ∧
    ∀ (dr sr1 : Reg) (imm : BitVec 5) (s : State), ∃ t, exec (.addImm dr sr1 imm) s = .next t ∧
      Spec.WritesDest s t dr (BitVec.ofInt 16 ((s.reg sr1).toNat + imm.toInt))

/-- O11. AND register: DR <- SR1 & SR2, flags from DR, nothing else. 40_operate.md R102; the number of the opcode is stated in WordsOfTheSpecDecode. -/
def Obligations.AndRegisterWritesConjunction : Prop :=
  (∀ w : Word, opcodeOf w = .and → w.getLsbD 5 = false → decode w = .andReg (field w 9 3) (field w 6 3) (field w 0 3)) ∧
    ∀ (dr sr1 sr2 : Reg) (s : State), ∃ t, exec (.andReg dr sr1 sr2) s = .next t ∧
      Spec.WritesDest s t dr (BitVec.ofNat 16 ((s.reg sr1).toNat &&& (s.reg sr2).toNat))

/-- O12. AND immediate: DR <- SR1 & sext_5(imm5), flags from DR, nothing else. 40_operate.md R103; the number of the opcode is stated in WordsOfTheSpecDecode. -/
def Obligations.AndImmediateWritesConjunction : Prop :=
  (∀ w : Word, opcodeOf w = .and → w.getLsbD 5 = true → decode w = .andImm (field w 9 3) (field w 6 3) (field w 0 5)) ∧
    ∀ (dr sr1 : Reg) (imm : BitVec 5) (s : State), ∃ t, exec (.andImm dr sr1 imm) s = .next t ∧
      Spec.WritesDest s t dr (s.reg sr1 &&& BitVec.ofInt 16 imm.toInt)

/-- O13. NOT: DR <- ~SR, flags from DR, nothing else. 40_operate.md R104; the number of the opcode is stated in WordsOfTheSpecDecode. -/
def Obligations.NotWritesComplement : Prop :=
  (∀ w : Word, opcodeOf w = .not → decode w = .not (field w 9 3) (field w 6 3)) ∧
    ∀ (dr sr : Reg) (s : State), ∃ t, exec (.not dr sr) s = .next t ∧
      Spec.WritesDest s t dr (BitVec.ofNat 16 (65535 - (s.reg sr).toNat))

/-- O14. LD: DR <- MemRead(PC + sext_9), flags from DR; nothing else but the poll of a KBSR read. 41_data_movement.md R120; the poll is StatusReadPollsTheKeyboard's. -/
def Obligations.LdLoadsPcRelative : Prop :=
  (∀ w : Word, opcodeOf w = .ld → decode w = .ld (field w 9 3) (field w 0 9)) ∧
    ∀ (dr : Reg) (off : BitVec 9) (s : State), ∃ t, exec (.ld dr off) s = .next t ∧
      Spec.WritesDest (Spec.afterRead s (s.pcOffset9 off)) t dr
        ((Spec.afterRead s (s.pcOffset9 off)).cell (s.pcOffset9 off))

/-- O15. LDI: pointer <- MemRead(PC + sext_9), then DR <- MemRead(pointer), flags from DR. 41_data_movement.md R121; the poll is StatusReadPollsTheKeyboard's. -/
def Obligations.LdiLoadsThroughPointer : Prop :=
  (∀ w : Word, opcodeOf w = .ldi → decode w = .ldi (field w 9 3) (field w 0 9)) ∧
    ∀ (dr : Reg) (off : BitVec 9) (s : State), ∃ t s1 s2 pointer, exec (.ldi dr off) s = .next t ∧
      s1 = Spec.afterRead s (s.pcOffset9 off) ∧ pointer = s1.cell (s.pcOffset9 off) ∧
      s2 = Spec.afterRead s1 pointer ∧ Spec.WritesDest s2 t dr (s2.cell pointer)

/-- O16. LDR: DR <- MemRead(BaseR + sext_6), flags from DR. 41_data_movement.md R122; the poll is StatusReadPollsTheKeyboard's. -/
def Obligations.LdrLoadsBaseOffset : Prop :=
  (∀ w : Word, opcodeOf w = .ldr → decode w = .ldr (field w 9 3) (field w 6 3) (field w 0 6)) ∧
    ∀ (dr base : Reg) (off : BitVec 6) (s : State), ∃ t, exec (.ldr dr base off) s = .next t ∧
      Spec.WritesDest (Spec.afterRead s (s.baseOffset6 base off)) t dr
        ((Spec.afterRead s (s.baseOffset6 base off)).cell (s.baseOffset6 base off))

/-- O17. LEA: DR <- PC + sext_9, flags from DR, no memory access. 41_data_movement.md R123. -/
def Obligations.LeaWritesAddress : Prop :=
  (∀ w : Word, opcodeOf w = .lea → decode w = .lea (field w 9 3) (field w 0 9)) ∧
    ∀ (dr : Reg) (off : BitVec 9) (s : State), ∃ t, exec (.lea dr off) s = .next t ∧
      Spec.WritesDest s t dr (BitVec.ofInt 16 (s.pc.toNat + off.toInt))

/-- O18. ST: cell[PC + sext_9] <- SR, nothing else. 41_data_movement.md R124. -/
def Obligations.StStoresPcRelative : Prop :=
  (∀ w : Word, opcodeOf w = .st → decode w = .st (field w 9 3) (field w 0 9)) ∧
    ∀ (sr : Reg) (off : BitVec 9) (s : State), ∃ t, exec (.st sr off) s = .next t ∧
      Spec.Stores s t (s.pcOffset9 off) (s.reg sr)

/-- O19. STI: pointer <- MemRead(PC + sext_9), then cell[pointer] <- SR. 41_data_movement.md R125; the poll is StatusReadPollsTheKeyboard's. -/
def Obligations.StiStoresThroughPointer : Prop :=
  (∀ w : Word, opcodeOf w = .sti → decode w = .sti (field w 9 3) (field w 0 9)) ∧
    ∀ (sr : Reg) (off : BitVec 9) (s : State), ∃ t s1, exec (.sti sr off) s = .next t ∧
      s1 = Spec.afterRead s (s.pcOffset9 off) ∧ Spec.Stores s1 t (s1.cell (s.pcOffset9 off)) (s.reg sr)

/-- O20. STR: cell[BaseR + sext_6] <- SR, nothing else. 41_data_movement.md R126. -/
def Obligations.StrStoresBaseOffset : Prop :=
  (∀ w : Word, opcodeOf w = .str → decode w = .str (field w 9 3) (field w 6 3) (field w 0 6)) ∧
    ∀ (sr base : Reg) (off : BitVec 6) (s : State), ∃ t, exec (.str sr base off) s = .next t ∧
      Spec.Stores s t (s.baseOffset6 base off) (s.reg sr)

/-- O21. BR: PC <- PC + sext_9 exactly if cond and COND[2:0] share a set bit; nothing else. 42_control.md R150. Which flag stands at which bit is not said here (decision D3). -/
def Obligations.BrBranchesOnSharedFlag : Prop :=
  (∀ w : Word, opcodeOf w = .br → decode w = .br (field w 9 3) (field w 0 9)) ∧
    ∀ (cond : BitVec 3) (off : BitVec 9) (s : State), ∃ t, exec (.br cond off) s = .next t ∧
      ((∃ k, cond.getLsbD k = true ∧ s.cond.getLsbD k = true) → t.pc = BitVec.ofInt 16 (s.pc.toNat + off.toInt)) ∧
      ((∀ k, cond.getLsbD k = true → s.cond.getLsbD k = false) → t.pc = s.pc) ∧
      { t with pc := s.pc } = s

/-- O22. JMP: PC <- BaseR, nothing else. 42_control.md R151; the model names the words with BaseR = R7 RET, as the table does (log 12). -/
def Obligations.JmpGoesToBase : Prop :=
  (∀ w : Word, opcodeOf w = .jmp → decode w = if field w 6 3 = 7#3 then .ret else .jmp (field w 6 3)) ∧
    (∀ (base : Reg) (s : State), ∃ t, exec (.jmp base) s = .next t ∧ t.pc = s.reg base ∧ { t with pc := s.pc } = s) ∧
    ∀ s : State, exec .ret s = exec (.jmp 7#3) s

/-- O23. RET is JMP R7: PC <- R7, nothing else. 42_control.md R152. -/
def Obligations.RetGoesToLink : Prop :=
  (∀ w : Word, opcodeOf w = .jmp → field w 6 3 = 7#3 → decode w = .ret) ∧
    ∀ s : State, exec .ret s = exec (.jmp 7#3) s ∧
      ∃ t, exec .ret s = .next t ∧ t.pc = s.reg 7#3 ∧ { t with pc := s.pc } = s

/-- O24. JSR: R7 <- PC, PC <- PC + sext_11, no flags. 42_control.md R153. -/
def Obligations.JsrLinksAndBranches : Prop :=
  (∀ w : Word, opcodeOf w = .jsr → w.getLsbD 11 = true → decode w = .jsr (field w 0 11)) ∧
    ∀ (off : BitVec 11) (s : State), ∃ t, exec (.jsr off) s = .next t ∧
      t.reg 7#3 = s.pc ∧ (∀ r, r ≠ 7#3 → t.reg r = s.reg r) ∧ t.pc = BitVec.ofInt 16 (s.pc.toNat + off.toInt) ∧
      { t with pc := s.pc, regs := s.regs } = s

/-- O25. JSRR: R7 <- PC, then PC <- BaseR; through R7 it falls through (D10, the spec's decision). 42_control.md R154; that the base is read after R7 is written is the spec's decision D10 (log 11). -/
def Obligations.JsrrLinksThenReadsBase : Prop :=
  (∀ w : Word, opcodeOf w = .jsr → w.getLsbD 11 = false → decode w = .jsrr (field w 6 3)) ∧
    ∀ (base : Reg) (s : State), ∃ t, exec (.jsrr base) s = .next t ∧
      t.reg 7#3 = s.pc ∧ (∀ r, r ≠ 7#3 → t.reg r = s.reg r) ∧ t.pc = (if base = 7#3 then s.pc else s.reg base) ∧
      { t with pc := s.pc, regs := s.regs } = s

/-- O26. GETC: R0 <- the next character (EofWord at the end), flags, no echo (flags: D26, the spec's decision). 43_trap_and_system.md R171; the flags are the spec's decision D26 (log 11), EofWord a free value (log 1). -/
def Obligations.GetcReadsOneCharacter : Prop :=
  (∀ w : Word, opcodeOf w = .trap → field w 0 8 = TrapVector.getc → decode w = .trapGetc) ∧
    (∀ (s : State) (b : Byte) (rest : List Byte), s.input = b :: rest → ∃ t, exec .trapGetc s = .next t ∧
      Spec.TakesChar s t (b.setWidth 16) ∧ t.input = rest ∧ t.consumed = s.consumed + 1 ∧ Spec.EndsTrap s t []) ∧
    ∀ s : State, s.input = [] → s.inputEnded = true → ∃ t, exec .trapGetc s = .next t ∧
      Spec.TakesChar s t Config.eofWord ∧ t.input = [] ∧ t.consumed = s.consumed ∧ Spec.EndsTrap s t []

/-- O27. OUT: the low byte of R0 is written and flushed, nothing else. 43_trap_and_system.md R172. -/
def Obligations.OutWritesLowByte : Prop :=
  (∀ w : Word, opcodeOf w = .trap → field w 0 8 = TrapVector.out → decode w = .trapOut) ∧
    ∀ s : State, ∃ t, exec .trapOut s = .next t ∧
      Spec.EndsTrap s t [BitVec.ofNat 8 (s.reg 0#3).toNat] ∧ Spec.KeepsRegsAndInput s t

/-- O28. PUTS: the low byte of each word from R0 up to the first zero word (no poll, wrap: D12, the spec's decision). 43_trap_and_system.md R173; raw reads and the wrap are the spec's decision D12 (log 11). -/
def Obligations.PutsWritesOneCharacterPerWord : Prop :=
  (∀ w : Word, opcodeOf w = .trap → field w 0 8 = TrapVector.puts → decode w = .trapPuts) ∧
    ∀ (s : State) (n : Nat), Spec.IsString s n → ∃ t, exec .trapPuts s = .next t ∧
      Spec.EndsTrap s t (Spec.putsOutput s n) ∧ Spec.KeepsRegsAndInput s t

/-- O29. IN: prompt, read one character, echo it, R0, flags (D24, D26 are the spec's decisions). 43_trap_and_system.md R174; the echo and the flags are the spec's decisions D24 and D26 (log 11), EofWord and InPrompt free values (log 1, log 3). -/
def Obligations.InPromptsReadsAndEchoes : Prop :=
  (∀ w : Word, opcodeOf w = .trap → field w 0 8 = TrapVector.inp → decode w = .trapIn) ∧
    (∀ (s : State) (b : Byte) (rest : List Byte), s.input = b :: rest → ∃ t, exec .trapIn s = .next t ∧
      Spec.TakesChar s t (b.setWidth 16) ∧ t.input = rest ∧ t.consumed = s.consumed + 1 ∧
      Spec.EndsTrap s t (Config.inPrompt ++ [b])) ∧
    ∀ s : State, s.input = [] → s.inputEnded = true → ∃ t, exec .trapIn s = .next t ∧
      Spec.TakesChar s t Config.eofWord ∧ t.input = [] ∧ t.consumed = s.consumed ∧
      Spec.EndsTrap s t (Config.inPrompt ++ [Config.eofWord.setWidth 8])

/-- O30. PUTSP: low byte, then high byte if nonzero, of each word up to the first zero word (D12). 43_trap_and_system.md R175; raw reads and the wrap are the spec's decision D12 (log 11). -/
def Obligations.PutspWritesTwoCharactersPerWord : Prop :=
  (∀ w : Word, opcodeOf w = .trap → field w 0 8 = TrapVector.putsp → decode w = .trapPutsp) ∧
    ∀ (s : State) (n : Nat), Spec.IsString s n → ∃ t, exec .trapPutsp s = .next t ∧
      Spec.EndsTrap s t (Spec.putspOutput s n) ∧ Spec.KeepsRegsAndInput s t

/-- O31. HALT: HaltMessage is written and flushed, run <- HALTED, nothing else. 43_trap_and_system.md R176; HaltMessage is a free value (log 3). -/
def Obligations.HaltAnnouncesAndHalts : Prop :=
  (∀ w : Word, opcodeOf w = .trap → field w 0 8 = TrapVector.halt → decode w = .trapHalt) ∧
    ∀ s : State, ∃ t, exec .trapHalt s = .next t ∧ t.run = .halted ∧
      Spec.EndsTrap s { t with run := s.run } Config.haltMessage ∧ Spec.KeepsRegsAndInput s t ∧
      step t = .fault .halted

/-- O32. TRAP with no routine's vector: FAULTED(UnknownTrapVector) (D9, the spec's decision), nothing else. 43_trap_and_system.md R177; the fault is the spec's decision D9 (log 11), FAULTED as a state log 5. -/
def Obligations.UnknownVectorFaults : Prop :=
  (∀ w : Word, opcodeOf w = .trap → field w 0 8 ∉ TrapVector.all → decode w = .trapOther (field w 0 8)) ∧
    ∀ (v : Byte) (s : State), ∃ t, exec (.trapOther v) s = .next t ∧
      t.run = .faulted (.unknownTrapVector v s.ir (s.pc - 1)) ∧ { t with run := s.run } = s

/-- O33. RTI and RES abort: FAULTED(InvalidOpcode), nothing else changes. 43_trap_and_system.md R179, R180; FAULTED as a state is log 5. -/
def Obligations.InvalidOpcodesAbort : Prop :=
  (∀ w : Word, opcodeOf w = .rti → decode w = .rti) ∧ (∀ w : Word, opcodeOf w = .res → decode w = .res) ∧
    ∀ s : State,
      (∃ t, exec .rti s = .next t ∧ t.run = .faulted (.invalidOpcode .rti s.ir (s.pc - 1)) ∧
        { t with run := s.run } = s ∧ step t = .fault (.faulted (.invalidOpcode .rti s.ir (s.pc - 1)))) ∧
      ∃ t, exec .res s = .next t ∧ t.run = .faulted (.invalidOpcode .res s.ir (s.pc - 1)) ∧
        { t with run := s.run } = s ∧ step t = .fault (.faulted (.invalidOpcode .res s.ir (s.pc - 1)))

/-- O34. With no zero word in memory PUTS and PUTSP never end: the cycle stays in the routine (log 6). 43_trap_and_system.md R173, R175; 93_implementation_defined.md: 'the routine never ends, and only a host stop ends the run' (log 6). -/
def Obligations.EndlessStringNeverEnds : Prop :=
  ∀ s : State, (∀ a, s.cell a ≠ 0) →
    exec .trapPuts s = .next { s with output := s.output ++ Spec.putsOutput s 65536, routine := some .puts } ∧
    exec .trapPutsp s = .next { s with output := s.output ++ Spec.putspOutput s 65536, routine := some .putsp } ∧
    ∀ r, r = .puts ∨ r = .putsp → s.run = .running → s.routine = some r →
      ∀ n, ∃ t, Sys2Proof.core.run n s = .next t ∧ t.run = .running ∧ t.routine = some r

/-- O35. GETC and IN hold on an empty open stream, and go on when the host delivers or ends it (log 4). 35_execution_cycle.md R88, 80_interfaces.md R262; the wait as a field of the state is log 4. -/
def Obligations.HoldWaitsForInput : Prop :=
  ∀ s : State, s.run = .running → s.input = [] → s.inputEnded = false →
    (∃ t, exec .trapGetc s = .next t ∧ t = { s with routine := some .getc } ∧ step t = .fault .hold ∧
      (∀ b, step (t.deliver b) = exec .trapGetc (s.deliver b)) ∧ step t.endInput = exec .trapGetc s.endInput) ∧
    ∃ t, exec .trapIn s = .next t ∧ t = { s with output := s.output ++ Config.inPrompt, routine := some .inp } ∧
      step t = .fault .hold ∧
      (∀ b, step (t.deliver b) = exec .trapIn (s.deliver b)) ∧ step t.endInput = exec .trapIn s.endInput

/-- O36. A step fetches, increments PC and runs the decoded instruction, or goes on with an unfinished routine. 35_execution_cycle.md R81, R82, R85; that fetch polls is the spec's decision D21 (log 11), the routine log 4 and log 6. -/
def Obligations.StepRunsTheDecodedInstruction : Prop :=
  ∀ s : State, s.run = .running →
    (s.routine = none → s.pc ≠ kbsrAddr →
      step s = exec (decode (s.cell s.pc)) { s with ir := s.cell s.pc, pc := s.pc + 1 }) ∧
    (s.routine = none → s.pc = kbsrAddr →
      step s = exec (decode (s.poll.cell s.pc)) { s.poll with ir := s.poll.cell s.pc, pc := s.pc + 1 }) ∧
    ∀ r, s.routine = some r → step s = resume r s

/-- O37. In HALTED and FAULTED there is no further step. 35_execution_cycle.md R80. -/
def Obligations.TerminalStatesHaveNoStep : Prop :=
  ∀ s : State, (s.run = .halted → step s = .fault .halted) ∧
    (∀ a, s.run = .faulted a → step s = .fault (.faulted a)) ∧ (s.run ≠ .running → ∀ t, step s ≠ .next t)

/-- O38. A step is never refused, and stops exactly in HALTED, FAULTED and a hold (steps around a hold and an endless string: the model's, log 4, log 6). 35_execution_cycle.md R88 and 60_exceptions.md R201: no other stop exists. By the model's choice the step that reaches a hold answers a next state (log 4), and an endless PUTS or PUTSP steps once a lap (log 6), where R173 says that its cycle never ends. -/
def Obligations.StepStopsOnlyWhereTheSpecDoes : Prop :=
  ∀ s : State, (∀ r, step s ≠ .refused r) ∧
    ((∃ t, step s = .next t) ↔
      s.run = .running ∧ ((s.routine = some .getc ∨ s.routine = some .inp) → s.inputReady))

/-- O39. Every instruction answers a next state in every state (a hold, an abort and an endless string by the model's choice: log 4, log 5, log 6). 60_exceptions.md R201: no memory, arithmetic, alignment, privilege or register fault exists. The next state of a hold (log 4; the spec calls a Hold never a step), of an abort (log 5) and of an endless string (log 6; R173 says that it never ends) is the model's choice. -/
def Obligations.EveryInstructionCompletes : Prop :=
  ∀ (i : Instr) (s : State), ∃ t, exec i s = .next t

/-- O40. A faulting cycle has done its fetch and nothing else, and FAULTED is never left. 60_exceptions.md R202. -/
def Obligations.FaultsArePrecise : Prop :=
  ∀ (s t : State) (a : Abort), s.atFetch → step s = .next t → t.run = .faulted a →
    { t with run := s.run } = s.fetch ∧
    (a = .invalidOpcode .rti t.ir s.pc ∨ a = .invalidOpcode .res t.ir s.pc ∨
      a = .unknownTrapVector (field t.ir 0 8) t.ir s.pc) ∧
    ∀ u, step t ≠ .next u

/-- O41. HALTED comes only from the HALT trap, FAULTED only from RTI, RES and unknown vectors (D9, D19: the spec's decisions). 10_state.md R29 ('only via the halt trap'), 60_exceptions.md R201, R203; the fault of an unknown vector is the spec's decision D9 (log 11), FAULTED its decision D19, and as a next state log 5. -/
def Obligations.OnlyHaltHaltsAndOnlyAbortsFault : Prop :=
  ∀ (i : Instr) (s t : State), exec i s = .next t → t.run = Spec.runAfter i s

/-- O42. COND is written by the flag writers alone, from the register they wrote (GETC, IN: D26). 10_state.md R28; GETC and IN by the spec's decision D26 (log 11). -/
def Obligations.OnlyFlagWritersSetFlags : Prop :=
  ∀ (i : Instr) (s t : State), exec i s = .next t →
    (Spec.flagReg i = none → t.cond = s.cond) ∧
    ∀ r, Spec.flagReg i = some r → s.routine = none → t.routine = none → t.cond = flagOf (t.reg r)

/-- O43. No instruction but BR, JMP, RET, JSR and JSRR writes PC. 10_state.md R23: 'No instruction except fetch, BR, JMP, JSR and JSRR writes PC.' -/
def Obligations.OnlyControlTransfersWritePc : Prop :=
  ∀ (i : Instr) (s t : State), exec i s = .next t → Spec.transfersControl i = false → t.pc = s.pc

/-- O44. An instruction changes no register but its destination; only JSR, JSRR or DR = 7 touch R7. 10_state.md R21 (which instructions write which register) and R22. -/
def Obligations.OnlyDestinationRegisterChanges : Prop :=
  ∀ (i : Instr) (s t : State) (r : Reg), exec i s = .next t → Spec.destReg i ≠ some r → t.reg r = s.reg r

/-- O45. A cell changes only if it is stored to, or is a keyboard cell and the instruction reads KBSR_ADDR. 20_memory.md R52, R55; 70_reset_and_hazards.md R231: nothing writes memory but stores and polls. -/
def Obligations.OnlyStoresAndPollsWriteMemory : Prop :=
  ∀ (i : Instr) (s t : State) (a : Word), Memory.wf s.mem = true → exec i s = .next t →
    Spec.storesTo i s ≠ some a → ((a ≠ kbsrAddr ∧ a ≠ kbdrAddr) ∨ kbsrAddr ∉ Spec.reads i s) → t.cell a = s.cell a

/-- O46. An instruction that neither reads KBSR_ADDR nor is GETC or IN does not see or touch the input. 20_memory.md R55 (d): input reaches the core only through the poll and the GETC and IN traps. -/
def Obligations.OnlyPollsAndInputTrapsSeeInput : Prop :=
  ∀ (i : Instr) (s t : State) (input : List Byte) (ended : Bool), exec i s = .next t →
    i ≠ .trapGetc → i ≠ .trapIn → kbsrAddr ∉ Spec.reads i s →
    exec i { s with input := input, inputEnded := ended } = .next { t with input := input, inputEnded := ended }

/-- O47. Fetch overwrites IR, instructions keep it, and no result depends on the IR before a fetch. 10_state.md R24. -/
def Obligations.IrCannotBeObserved : Prop :=
  (∀ (s : State) (w : Word), s.atFetch → step { s with ir := w } = step s) ∧
    (∀ s t : State, s.atFetch → step s = .next t → t.ir = (s.memRead s.pc).1) ∧
    ∀ (i : Instr) (s t : State) (w : Word), i ≠ .rti → i ≠ .res → (∀ v, i ≠ .trapOther v) → exec i s = .next t →
      exec i { s with ir := w } = .next { t with ir := w }

/-- O48. Only OUT, PUTS, PUTSP, IN and HALT write output, and every step only appends to it. 80_interfaces.md R264, R265: bytes are appended in program order. -/
def Obligations.OnlyOutputTrapsWriteOutput : Prop :=
  (∀ (i : Instr) (s t : State), exec i s = .next t → Spec.writesOutput i = false → t.output = s.output) ∧
    ∀ s t : State, step s = .next t → s.output <+: t.output

/-- O49. A later host stop that loses only unflushed bytes shows every byte flushed before (a stop need not be such: D18). 80_interfaces.md R265, R266. A stop may show any prefix by the spec's decision D18 (log 15), so that it loses only unflushed bytes is a premise. -/
def Obligations.FlushedOutputStaysObservable : Prop :=
  ∀ (s t : State) (o : List Byte) (consumed : Nat), s.Inv → step s = .next t → StoppedOutput t o consumed →
    OnlyUnflushedLost t o → s.output.take s.flushed <+: o

/-- O50. Every trap routine that ends its cycle has flushed all output (per trap: D29, the spec's decision). 43_trap_and_system.md R178; per-trap flushing is the spec's decision D29. -/
def Obligations.EveryTrapFlushes : Prop :=
  ∀ (i : Instr) (s t : State), Spec.isTrapRoutine i = true → exec i s = .next t → t.routine = none →
    t.flushed = t.output.length

/-- O51. Every 16-bit word decodes to a well-formed instruction. 30_encoding.md R68: decoding is total. -/
def Obligations.DecodeIsWellFormed : Prop :=
  ∀ w : Word, (decode w).wf = true

/-- O52. Decoding an encoded well-formed instruction gives it back, for every instruction and operand. 30_encoding.md R62, R68. The numbers of opcodes and vectors are decisions D2 and D8; the statement does not rest on them. -/
def Obligations.DecodeEncodeRoundTrip : Prop :=
  ∀ i : Instr, i.wf = true → decode (encode i) = i

/-- O53. Words that differ only in bits the core does not read decode alike (D25, the spec's decision). 30_encoding.md R64; not checking the bits is the spec's decision D25 (log 11). -/
def Obligations.UnreadBitsAreIgnored : Prop :=
  (∀ w x : Word, decode (w ^^^ (x &&& unreadBits (decode w))) = decode w) ∧
    ∀ w : Word, (encode (decode w) ^^^ w) &&& ~~~unreadBits (decode w) = 0

/-- O54. Words of the spec's test vectors decode to their instructions (numbers: D2, D8, log 10). 30_encoding.md R61, R67; the numbers are the spec's decisions D2 and D8 (log 10). -/
def Obligations.WordsOfTheSpecDecode : Prop :=
  decode 0x1283 = .addReg 1 2 3 ∧ decode 0x1025 = .addImm 0 0 5 ∧ decode 0x5705 = .andReg 3 4 5 ∧
    decode 0x573F = .andImm 3 4 (-1) ∧ decode 0x92BF = .not 1 2 ∧ decode 0x2202 = .ld 1 2 ∧
    decode 0xA400 = .ldi 2 0 ∧ decode 0x695F = .ldr 4 5 31 ∧ decode 0xE100 = .lea 0 (-256) ∧
    decode 0x3201 = .st 1 1 ∧ decode 0xB201 = .sti 1 1 ∧ decode 0x75BF = .str 2 6 (-1) ∧
    decode 0x0405 = .br 0b010 5 ∧ decode 0xC080 = .jmp 2 ∧ decode 0xC1C0 = .ret ∧ decode 0x4BFF = .jsr 1023 ∧
    decode 0x40C0 = .jsrr 3 ∧ decode 0xF020 = .trapGetc ∧ decode 0xF021 = .trapOut ∧ decode 0xF022 = .trapPuts ∧
    decode 0xF023 = .trapIn ∧ decode 0xF024 = .trapPutsp ∧ decode 0xF025 = .trapHalt ∧
    decode 0xF026 = .trapOther 0x26 ∧ decode 0x8000 = .rti ∧ decode 0xD000 = .res

/-- O55. Images fill consecutive cells from their origins, later ones win; the entry point is 0x3000. 70_reset_and_hazards.md R232, R234. -/
def Obligations.LoadedImagesLaterWin : Prop :=
  ∀ (images : List Image) (input : List Byte) (ended : Bool) (s : State),
    launch images input ended = some s →
    (∀ a, s.cell a = images.foldl (fun v i => (Spec.imageWord i a).getD v) (State.reset.cell a)) ∧
    s.pc = 0x3000 ∧ s.input = input ∧ s.inputEnded = ended ∧
    { s with mem := State.reset.mem, input := State.reset.input, inputEnded := State.reset.inputEnded } = State.reset

/-- O56. Image files are big-endian words, origin first; odd files and images past 0xFFFF are refused (D16). 70_reset_and_hazards.md R233; the refusals are the spec's decision D16 (log 11, log 16). -/
def Obligations.LaunchRefusesWhatDoesNotFit : Prop :=
  (∀ (origin : Word) (words : List Word), parseImage (Spec.bigEndian (origin :: words)) = some ⟨origin, words⟩) ∧
    (∀ file : List Byte, file.length % 2 = 1 → parseImage file = none) ∧
    ∀ (images : List Image) (input : List Byte) (ended : Bool),
      launch images input ended = none ↔ ∃ i ∈ images, 0x10000 < i.origin.toNat + i.words.length

/-- O57. The state after reset meets the invariant that every step keeps. The base case of StepKeepsTheInvariant. -/
def Obligations.ResetMeetsTheInvariant : Prop :=
  State.reset.Inv

/-- O58. Every step keeps: canonical memory, legal COND, output flushed between cycles, routines only while running. 10_state.md R25, R26; 43_trap_and_system.md R178; 20_memory.md R40. -/
def Obligations.StepKeepsTheInvariant : Prop :=
  ∀ s t : State, s.Inv → step s = .next t → t.Inv

/-- O59. Every state of every run, from any launch under any input and host moves, meets the invariant. 70_reset_and_hazards.md R230-R232; 80_interfaces.md R267: all runs of the machine. -/
def Obligations.ReachableStatesMeetTheInvariant : Prop :=
  ∀ s : State, Reachable s → s.Inv

/-- O60. A host stop, inside a cycle too, shows any prefix of what is written by the cycle's end (D18, the spec's decision). 80_interfaces.md R266, 60_exceptions.md R203 and R206. That any prefix may be observed is the spec's decision D18 (log 15). -/
def Obligations.StopShowsAnyPrefix : Prop :=
  ∀ s : State, (s.run ≠ .running → ∀ o consumed, ¬ StoppedOutput s o consumed) ∧
    (∀ t o, step s = .next t → ((∃ consumed, StoppedOutput s o consumed) ↔ o <+: t.output)) ∧
    (step s = .fault .hold → ∀ o, ((∃ consumed, StoppedOutput s o consumed) ↔ o <+: s.output))
end

