-- ==== Sys2Proof/Laws/Encoding.lean ====
section
/-! SUPPORT. The laws of fields in a word: a field read where it was placed, a field read beside it, and the opcode over
the rest of a word. -/

namespace Sys2Proof

/-- The bits of a field. -/
theorem getLsbD_field (w : Word) (lo n k : Nat) :
    (field w lo n).getLsbD k = (decide (k < n) && w.getLsbD (lo + k)) := by
  simp [field]

/-- The bits of a placed field. -/
theorem getLsbD_place {n : Nat} (v : BitVec n) (lo k : Nat) :
    (place v lo).getLsbD k = (decide (k < 16) && !decide (k < lo) && v.getLsbD (k - lo)) := by
  simp only [place, BitVec.getLsbD_shiftLeft, BitVec.getLsbD_setWidth]
  by_cases hk : k < 16 <;> by_cases hl : k < lo <;> simp [hk, hl]
  omega

/-- A placed field has no bit at or above its end. -/
theorem getLsbD_place_above {n : Nat} (v : BitVec n) {lo k : Nat} (h : lo + n ≤ k) :
    (place v lo).getLsbD k = false := by
  rw [getLsbD_place, BitVec.getLsbD_of_ge v (k - lo) (by omega), Bool.and_false]

/-- A field of two words joined is the two fields joined. -/
theorem field_or (a b : Word) (lo n : Nat) : field (a ||| b) lo n = field a lo n ||| field b lo n := by
  apply BitVec.eq_of_getLsbD_eq
  intro k hk
  simp [field, hk]

/-- A field of the zero word is zero. -/
theorem field_zero (lo n : Nat) : field 0#16 lo n = 0#n := by
  apply BitVec.eq_of_getLsbD_eq
  intro k hk
  simp [field]

/-- A field is read back where it was placed. -/
theorem field_place {n : Nat} (v : BitVec n) (lo : Nat) (h : lo + n ≤ 16) : field (place v lo) lo n = v := by
  apply BitVec.eq_of_getLsbD_eq
  intro k hk
  have h1 : lo + k < 16 := by omega
  rw [getLsbD_field, getLsbD_place]
  simp [hk, h1]

/-- A placed field leaves every field beside it zero. -/
theorem field_place_beside {n : Nat} (v : BitVec n) (lo lo' m : Nat) (h : lo + n ≤ lo' ∨ lo' + m ≤ lo) :
    field (place v lo) lo' m = 0#m := by
  apply BitVec.eq_of_getLsbD_eq
  intro k hk
  rw [getLsbD_field, getLsbD_place]
  rcases h with h | h
  · rw [BitVec.getLsbD_of_ge v (lo' + k - lo) (by omega)]
    simp
  · have : lo' + k < lo := by omega
    simp [this]

/-- A word with no bit from 12 up is zero in bits 15:12, so the opcode placed there reads back. -/
theorem opcodeOf_withOpcode (op : Opcode) (rest : Word) (h : field rest 12 4 = 0#4) :
    opcodeOf (withOpcode op rest) = op := by
  unfold opcodeOf withOpcode
  rw [field_or, field_place _ _ (by omega), h, BitVec.or_zero]
  cases op <;> rfl

/-- A field below bit 12 is read from the rest. -/
theorem field_withOpcode (op : Opcode) (rest : Word) {lo n : Nat} (h : lo + n ≤ 12) :
    field (withOpcode op rest) lo n = field rest lo n := by
  unfold withOpcode
  rw [field_or, field_place_beside _ _ _ _ (.inr h), BitVec.zero_or]

/-- A bit below bit 12 is the rest's. -/
theorem getLsbD_withOpcode (op : Opcode) (rest : Word) {k : Nat} (h : k < 12) :
    (withOpcode op rest).getLsbD k = rest.getLsbD k := by
  simp [withOpcode, getLsbD_place, h]

end Sys2Proof
end

