-- ==== Sys2Proof/Laws/State.lean ====
section
/-! SUPPORT. One lemma per field per named update, true by rfl, so that no proof unfolds a record update. -/

namespace Sys2Proof.Machine


/-! ### `setReg` -/

@[simp] theorem setReg_regs (s : State) (i : Reg) (v : Word) : (s.setReg i v).regs = s.regs.set i.toNat v i.isLt := rfl
@[simp] theorem setReg_pc (s : State) (i : Reg) (v : Word) : (s.setReg i v).pc = s.pc := rfl
@[simp] theorem setReg_ir (s : State) (i : Reg) (v : Word) : (s.setReg i v).ir = s.ir := rfl
@[simp] theorem setReg_cond (s : State) (i : Reg) (v : Word) : (s.setReg i v).cond = s.cond := rfl
@[simp] theorem setReg_run (s : State) (i : Reg) (v : Word) : (s.setReg i v).run = s.run := rfl
@[simp] theorem setReg_mem (s : State) (i : Reg) (v : Word) : (s.setReg i v).mem = s.mem := rfl
@[simp] theorem setReg_input (s : State) (i : Reg) (v : Word) : (s.setReg i v).input = s.input := rfl
@[simp] theorem setReg_inputEnded (s : State) (i : Reg) (v : Word) : (s.setReg i v).inputEnded = s.inputEnded := rfl
@[simp] theorem setReg_consumed (s : State) (i : Reg) (v : Word) : (s.setReg i v).consumed = s.consumed := rfl
@[simp] theorem setReg_output (s : State) (i : Reg) (v : Word) : (s.setReg i v).output = s.output := rfl
@[simp] theorem setReg_flushed (s : State) (i : Reg) (v : Word) : (s.setReg i v).flushed = s.flushed := rfl
@[simp] theorem setReg_routine (s : State) (i : Reg) (v : Word) : (s.setReg i v).routine = s.routine := rfl
@[simp] theorem setReg_polls (s : State) (i : Reg) (v : Word) : (s.setReg i v).polls = s.polls := rfl
@[simp] theorem setReg_cell (s : State) (i : Reg) (v : Word) (c : Word) : (s.setReg i v).cell c = s.cell c := rfl

/-! ### `setPc` -/

@[simp] theorem setPc_regs (s : State) (v : Word) : (s.setPc v).regs = s.regs := rfl
@[simp] theorem setPc_pc (s : State) (v : Word) : (s.setPc v).pc = v := rfl
@[simp] theorem setPc_ir (s : State) (v : Word) : (s.setPc v).ir = s.ir := rfl
@[simp] theorem setPc_cond (s : State) (v : Word) : (s.setPc v).cond = s.cond := rfl
@[simp] theorem setPc_run (s : State) (v : Word) : (s.setPc v).run = s.run := rfl
@[simp] theorem setPc_mem (s : State) (v : Word) : (s.setPc v).mem = s.mem := rfl
@[simp] theorem setPc_input (s : State) (v : Word) : (s.setPc v).input = s.input := rfl
@[simp] theorem setPc_inputEnded (s : State) (v : Word) : (s.setPc v).inputEnded = s.inputEnded := rfl
@[simp] theorem setPc_consumed (s : State) (v : Word) : (s.setPc v).consumed = s.consumed := rfl
@[simp] theorem setPc_output (s : State) (v : Word) : (s.setPc v).output = s.output := rfl
@[simp] theorem setPc_flushed (s : State) (v : Word) : (s.setPc v).flushed = s.flushed := rfl
@[simp] theorem setPc_routine (s : State) (v : Word) : (s.setPc v).routine = s.routine := rfl
@[simp] theorem setPc_polls (s : State) (v : Word) : (s.setPc v).polls = s.polls := rfl
@[simp] theorem setPc_reg (s : State) (v : Word) (j : Reg) : (s.setPc v).reg j = s.reg j := rfl
@[simp] theorem setPc_cell (s : State) (v : Word) (c : Word) : (s.setPc v).cell c = s.cell c := rfl

/-! ### `setCond` -/

@[simp] theorem setCond_regs (s : State) (v : Word) : (s.setCond v).regs = s.regs := rfl
@[simp] theorem setCond_pc (s : State) (v : Word) : (s.setCond v).pc = s.pc := rfl
@[simp] theorem setCond_ir (s : State) (v : Word) : (s.setCond v).ir = s.ir := rfl
@[simp] theorem setCond_cond (s : State) (v : Word) : (s.setCond v).cond = v := rfl
@[simp] theorem setCond_run (s : State) (v : Word) : (s.setCond v).run = s.run := rfl
@[simp] theorem setCond_mem (s : State) (v : Word) : (s.setCond v).mem = s.mem := rfl
@[simp] theorem setCond_input (s : State) (v : Word) : (s.setCond v).input = s.input := rfl
@[simp] theorem setCond_inputEnded (s : State) (v : Word) : (s.setCond v).inputEnded = s.inputEnded := rfl
@[simp] theorem setCond_consumed (s : State) (v : Word) : (s.setCond v).consumed = s.consumed := rfl
@[simp] theorem setCond_output (s : State) (v : Word) : (s.setCond v).output = s.output := rfl
@[simp] theorem setCond_flushed (s : State) (v : Word) : (s.setCond v).flushed = s.flushed := rfl
@[simp] theorem setCond_routine (s : State) (v : Word) : (s.setCond v).routine = s.routine := rfl
@[simp] theorem setCond_polls (s : State) (v : Word) : (s.setCond v).polls = s.polls := rfl
@[simp] theorem setCond_reg (s : State) (v : Word) (j : Reg) : (s.setCond v).reg j = s.reg j := rfl
@[simp] theorem setCond_cell (s : State) (v : Word) (c : Word) : (s.setCond v).cell c = s.cell c := rfl

/-! ### `memWrite` -/

@[simp] theorem memWrite_regs (s : State) (a v : Word) : (s.memWrite a v).regs = s.regs := rfl
@[simp] theorem memWrite_pc (s : State) (a v : Word) : (s.memWrite a v).pc = s.pc := rfl
@[simp] theorem memWrite_ir (s : State) (a v : Word) : (s.memWrite a v).ir = s.ir := rfl
@[simp] theorem memWrite_cond (s : State) (a v : Word) : (s.memWrite a v).cond = s.cond := rfl
@[simp] theorem memWrite_run (s : State) (a v : Word) : (s.memWrite a v).run = s.run := rfl
@[simp] theorem memWrite_mem (s : State) (a v : Word) : (s.memWrite a v).mem = Memory.write s.mem a.toNat v := rfl
@[simp] theorem memWrite_input (s : State) (a v : Word) : (s.memWrite a v).input = s.input := rfl
@[simp] theorem memWrite_inputEnded (s : State) (a v : Word) : (s.memWrite a v).inputEnded = s.inputEnded := rfl
@[simp] theorem memWrite_consumed (s : State) (a v : Word) : (s.memWrite a v).consumed = s.consumed := rfl
@[simp] theorem memWrite_output (s : State) (a v : Word) : (s.memWrite a v).output = s.output := rfl
@[simp] theorem memWrite_flushed (s : State) (a v : Word) : (s.memWrite a v).flushed = s.flushed := rfl
@[simp] theorem memWrite_routine (s : State) (a v : Word) : (s.memWrite a v).routine = s.routine := rfl
@[simp] theorem memWrite_polls (s : State) (a v : Word) : (s.memWrite a v).polls = s.polls := rfl
@[simp] theorem memWrite_reg (s : State) (a v : Word) (j : Reg) : (s.memWrite a v).reg j = s.reg j := rfl

/-! ### `countPoll` -/

@[simp] theorem countPoll_regs (s : State) : (s.countPoll).regs = s.regs := rfl
@[simp] theorem countPoll_pc (s : State) : (s.countPoll).pc = s.pc := rfl
@[simp] theorem countPoll_ir (s : State) : (s.countPoll).ir = s.ir := rfl
@[simp] theorem countPoll_cond (s : State) : (s.countPoll).cond = s.cond := rfl
@[simp] theorem countPoll_run (s : State) : (s.countPoll).run = s.run := rfl
@[simp] theorem countPoll_mem (s : State) : (s.countPoll).mem = s.mem := rfl
@[simp] theorem countPoll_input (s : State) : (s.countPoll).input = s.input := rfl
@[simp] theorem countPoll_inputEnded (s : State) : (s.countPoll).inputEnded = s.inputEnded := rfl
@[simp] theorem countPoll_consumed (s : State) : (s.countPoll).consumed = s.consumed := rfl
@[simp] theorem countPoll_output (s : State) : (s.countPoll).output = s.output := rfl
@[simp] theorem countPoll_flushed (s : State) : (s.countPoll).flushed = s.flushed := rfl
@[simp] theorem countPoll_routine (s : State) : (s.countPoll).routine = s.routine := rfl
@[simp] theorem countPoll_polls (s : State) : (s.countPoll).polls = s.polls + 1 := rfl
@[simp] theorem countPoll_reg (s : State) (j : Reg) : (s.countPoll).reg j = s.reg j := rfl
@[simp] theorem countPoll_cell (s : State) (c : Word) : (s.countPoll).cell c = s.cell c := rfl

/-! ### `out` -/

@[simp] theorem out_regs (s : State) (bs : List Byte) : (s.out bs).regs = s.regs := rfl
@[simp] theorem out_pc (s : State) (bs : List Byte) : (s.out bs).pc = s.pc := rfl
@[simp] theorem out_ir (s : State) (bs : List Byte) : (s.out bs).ir = s.ir := rfl
@[simp] theorem out_cond (s : State) (bs : List Byte) : (s.out bs).cond = s.cond := rfl
@[simp] theorem out_run (s : State) (bs : List Byte) : (s.out bs).run = s.run := rfl
@[simp] theorem out_mem (s : State) (bs : List Byte) : (s.out bs).mem = s.mem := rfl
@[simp] theorem out_input (s : State) (bs : List Byte) : (s.out bs).input = s.input := rfl
@[simp] theorem out_inputEnded (s : State) (bs : List Byte) : (s.out bs).inputEnded = s.inputEnded := rfl
@[simp] theorem out_consumed (s : State) (bs : List Byte) : (s.out bs).consumed = s.consumed := rfl
@[simp] theorem out_output (s : State) (bs : List Byte) : (s.out bs).output = s.output ++ bs := rfl
@[simp] theorem out_flushed (s : State) (bs : List Byte) : (s.out bs).flushed = s.flushed := rfl
@[simp] theorem out_routine (s : State) (bs : List Byte) : (s.out bs).routine = s.routine := rfl
@[simp] theorem out_polls (s : State) (bs : List Byte) : (s.out bs).polls = s.polls := rfl
@[simp] theorem out_reg (s : State) (bs : List Byte) (j : Reg) : (s.out bs).reg j = s.reg j := rfl
@[simp] theorem out_cell (s : State) (bs : List Byte) (c : Word) : (s.out bs).cell c = s.cell c := rfl

/-! ### `flush` -/

@[simp] theorem flush_regs (s : State) : (s.flush).regs = s.regs := rfl
@[simp] theorem flush_pc (s : State) : (s.flush).pc = s.pc := rfl
@[simp] theorem flush_ir (s : State) : (s.flush).ir = s.ir := rfl
@[simp] theorem flush_cond (s : State) : (s.flush).cond = s.cond := rfl
@[simp] theorem flush_run (s : State) : (s.flush).run = s.run := rfl
@[simp] theorem flush_mem (s : State) : (s.flush).mem = s.mem := rfl
@[simp] theorem flush_input (s : State) : (s.flush).input = s.input := rfl
@[simp] theorem flush_inputEnded (s : State) : (s.flush).inputEnded = s.inputEnded := rfl
@[simp] theorem flush_consumed (s : State) : (s.flush).consumed = s.consumed := rfl
@[simp] theorem flush_output (s : State) : (s.flush).output = s.output := rfl
@[simp] theorem flush_flushed (s : State) : (s.flush).flushed = s.output.length := rfl
@[simp] theorem flush_routine (s : State) : (s.flush).routine = s.routine := rfl
@[simp] theorem flush_polls (s : State) : (s.flush).polls = s.polls := rfl
@[simp] theorem flush_reg (s : State) (j : Reg) : (s.flush).reg j = s.reg j := rfl
@[simp] theorem flush_cell (s : State) (c : Word) : (s.flush).cell c = s.cell c := rfl

/-! ### `setRoutine` -/

@[simp] theorem setRoutine_regs (s : State) (r : Option Routine) : (s.setRoutine r).regs = s.regs := rfl
@[simp] theorem setRoutine_pc (s : State) (r : Option Routine) : (s.setRoutine r).pc = s.pc := rfl
@[simp] theorem setRoutine_ir (s : State) (r : Option Routine) : (s.setRoutine r).ir = s.ir := rfl
@[simp] theorem setRoutine_cond (s : State) (r : Option Routine) : (s.setRoutine r).cond = s.cond := rfl
@[simp] theorem setRoutine_run (s : State) (r : Option Routine) : (s.setRoutine r).run = s.run := rfl
@[simp] theorem setRoutine_mem (s : State) (r : Option Routine) : (s.setRoutine r).mem = s.mem := rfl
@[simp] theorem setRoutine_input (s : State) (r : Option Routine) : (s.setRoutine r).input = s.input := rfl
@[simp] theorem setRoutine_inputEnded (s : State) (r : Option Routine) : (s.setRoutine r).inputEnded = s.inputEnded := rfl
@[simp] theorem setRoutine_consumed (s : State) (r : Option Routine) : (s.setRoutine r).consumed = s.consumed := rfl
@[simp] theorem setRoutine_output (s : State) (r : Option Routine) : (s.setRoutine r).output = s.output := rfl
@[simp] theorem setRoutine_flushed (s : State) (r : Option Routine) : (s.setRoutine r).flushed = s.flushed := rfl
@[simp] theorem setRoutine_routine (s : State) (r : Option Routine) : (s.setRoutine r).routine = r := rfl
@[simp] theorem setRoutine_polls (s : State) (r : Option Routine) : (s.setRoutine r).polls = s.polls := rfl
@[simp] theorem setRoutine_reg (s : State) (r : Option Routine) (j : Reg) : (s.setRoutine r).reg j = s.reg j := rfl
@[simp] theorem setRoutine_cell (s : State) (r : Option Routine) (c : Word) : (s.setRoutine r).cell c = s.cell c := rfl

/-! ### `setRun` -/

@[simp] theorem setRun_regs (s : State) (r : Run) : (s.setRun r).regs = s.regs := rfl
@[simp] theorem setRun_pc (s : State) (r : Run) : (s.setRun r).pc = s.pc := rfl
@[simp] theorem setRun_ir (s : State) (r : Run) : (s.setRun r).ir = s.ir := rfl
@[simp] theorem setRun_cond (s : State) (r : Run) : (s.setRun r).cond = s.cond := rfl
@[simp] theorem setRun_run (s : State) (r : Run) : (s.setRun r).run = r := rfl
@[simp] theorem setRun_mem (s : State) (r : Run) : (s.setRun r).mem = s.mem := rfl
@[simp] theorem setRun_input (s : State) (r : Run) : (s.setRun r).input = s.input := rfl
@[simp] theorem setRun_inputEnded (s : State) (r : Run) : (s.setRun r).inputEnded = s.inputEnded := rfl
@[simp] theorem setRun_consumed (s : State) (r : Run) : (s.setRun r).consumed = s.consumed := rfl
@[simp] theorem setRun_output (s : State) (r : Run) : (s.setRun r).output = s.output := rfl
@[simp] theorem setRun_flushed (s : State) (r : Run) : (s.setRun r).flushed = s.flushed := rfl
@[simp] theorem setRun_routine (s : State) (r : Run) : (s.setRun r).routine = s.routine := rfl
@[simp] theorem setRun_polls (s : State) (r : Run) : (s.setRun r).polls = s.polls := rfl
@[simp] theorem setRun_reg (s : State) (r : Run) (j : Reg) : (s.setRun r).reg j = s.reg j := rfl
@[simp] theorem setRun_cell (s : State) (r : Run) (c : Word) : (s.setRun r).cell c = s.cell c := rfl

/-! ### The register file -/

theorem setReg_reg_self (s : State) (i : Reg) (v : Word) : (s.setReg i v).reg i = v := by
  simp [State.reg]

theorem setReg_reg_ne (s : State) {i j : Reg} (v : Word) (h : i ≠ j) : (s.setReg i v).reg j = s.reg j := by
  have hne : i.toNat ≠ j.toNat := fun e => h (BitVec.eq_of_toNat_eq e)
  simp [State.reg, hne]

/-- A read after a write sees the written value, and every other register is left alone. -/
theorem setReg_reg (s : State) (i j : Reg) (v : Word) :
    (s.setReg i v).reg j = if i = j then v else s.reg j := by
  by_cases h : i = j
  · subst h; simp [setReg_reg_self]
  · simp [h, setReg_reg_ne s v h]

end Sys2Proof.Machine
end

