-- ==== Sys2Proof/Laws/Memory.lean ====
section
/-! SUPPORT. The laws of the memory array: a read after a write, and the canonical form every operation keeps. -/

namespace Sys2Proof.Machine

/-- Below its lower bound a canonical memory lists nothing. -/
theorem Memory.read_below {lo : Nat} {m : Memory} {a : Nat} (h : Memory.wfFrom lo m = true) (ha : a < lo) :
    Memory.read m a = unlistedWord := by
  induction m generalizing lo with
  | nil => rfl
  | cons kw rest ih =>
    obtain ⟨k, w⟩ := kw
    simp only [Memory.wfFrom, Bool.and_eq_true, decide_eq_true_eq] at h
    obtain ⟨⟨⟨hlo, -⟩, -⟩, hrest⟩ := h
    have hk : k ≠ a := by omega
    simp only [Memory.read, hk, if_false]
    exact ih hrest (by omega)

/-- The bound of a canonical form may be lowered. -/
theorem Memory.wfFrom_mono {lo lo' : Nat} {m : Memory} (h : Memory.wfFrom lo m = true) (hle : lo' ≤ lo) :
    Memory.wfFrom lo' m = true := by
  cases m with
  | nil => rfl
  | cons kw rest =>
    obtain ⟨k, w⟩ := kw
    simp only [Memory.wfFrom, Bool.and_eq_true, decide_eq_true_eq] at h ⊢
    exact ⟨⟨⟨by omega, h.1.1.2⟩, h.1.2⟩, h.2⟩

/-- A write keeps the canonical form. -/
theorem Memory.write_wfFrom {lo : Nat} {m : Memory} {a : Nat} {v : Word} (h : Memory.wfFrom lo m = true)
    (hlo : lo ≤ a) (ha : a < 65536) : Memory.wfFrom lo (Memory.write m a v) = true := by
  induction m generalizing lo with
  | nil =>
    by_cases hv : v = unlistedWord <;> simp [Memory.write, Memory.wfFrom, hv, hlo, ha]
  | cons kw rest ih =>
    obtain ⟨k, w⟩ := kw
    have h0 := h
    simp only [Memory.wfFrom, Bool.and_eq_true, decide_eq_true_eq] at h
    obtain ⟨⟨⟨hk, hk2⟩, hw⟩, hrest⟩ := h
    simp only [Memory.write]
    by_cases hlt : a < k
    · by_cases hv : v = unlistedWord
      · simpa [hlt, hv] using h0
      · have : Memory.wfFrom (a + 1) ((k, w) :: rest) = true := by
          simp only [Memory.wfFrom, Bool.and_eq_true, decide_eq_true_eq]
          exact ⟨⟨⟨by omega, hk2⟩, hw⟩, hrest⟩
        simp only [hlt, hv, if_true, if_false, Memory.wfFrom, Bool.and_eq_true, decide_eq_true_eq] at this ⊢
        exact ⟨⟨⟨hlo, ha⟩, hv⟩, this⟩
    · by_cases he : a = k
      · by_cases hv : v = unlistedWord
        · simpa [hlt, he, hv] using Memory.wfFrom_mono hrest (by omega)
        · simp only [he, hv, if_true, if_false]
          simp only [Nat.lt_irrefl, if_false, Memory.wfFrom, Bool.and_eq_true, decide_eq_true_eq]
          exact ⟨⟨⟨by omega, hk2⟩, hv⟩, hrest⟩
      · simp only [hlt, he, if_false, Memory.wfFrom, Bool.and_eq_true, decide_eq_true_eq]
        exact ⟨⟨⟨hk, hk2⟩, hw⟩, ih hrest (by omega)⟩

/-- Every store keeps the canonical form (a store's address is a 16-bit word). -/
theorem Memory.write_wf {m : Memory} (h : Memory.wf m = true) (a v : Word) :
    Memory.wf (Memory.write m a.toNat v) = true :=
  Memory.write_wfFrom h (Nat.zero_le _) a.isLt

/-- A read after a write in a canonical memory: the written cell holds the value, every other cell is left alone. -/
theorem Memory.read_write_from {lo : Nat} {m : Memory} {a b : Nat} {v : Word} (h : Memory.wfFrom lo m = true) :
    Memory.read (Memory.write m a v) b = if a = b then v else Memory.read m b := by
  induction m generalizing lo with
  | nil =>
    by_cases hv : v = unlistedWord <;> by_cases hab : a = b <;> simp [Memory.write, Memory.read, hv, hab]
  | cons kw rest ih =>
    obtain ⟨k, w⟩ := kw
    have h0 := h
    simp only [Memory.wfFrom, Bool.and_eq_true, decide_eq_true_eq] at h
    obtain ⟨-, hrest⟩ := h
    simp only [Memory.write]
    by_cases hlt : a < k
    · have hk : k ≠ a := by omega
      have hra : Memory.read rest a = unlistedWord := Memory.read_below hrest (by omega)
      by_cases hv : v = unlistedWord
      · by_cases hab : a = b
        · subst hab; simp [hlt, hv, Memory.read, hk, hra]
        · simp [hlt, hv, hab]
      · simp [hlt, hv, Memory.read]
    · by_cases he : a = k
      · subst he
        have hra : Memory.read rest a = unlistedWord := Memory.read_below hrest (by omega)
        by_cases hv : v = unlistedWord
        · by_cases hab : a = b
          · subst hab; simp [hv, hra]
          · simp [hv, hab, Memory.read]
        · by_cases hab : a = b <;> simp [hv, hab, Memory.read]
      · simp only [hlt, he, if_false, Memory.read, ih hrest]
        by_cases hkb : k = b
        · have : a ≠ b := by omega
          simp [hkb, this]
        · simp [hkb]

/-- Reading a cell after a store, in a state whose memory is canonical. -/
theorem memWrite_cell (s : State) (a b v : Word) (h : Memory.wf s.mem = true) :
    (s.memWrite a v).cell b = if a = b then v else s.cell b := by
  simp only [State.cell, memWrite_mem, Memory.read_write_from h, BitVec.toNat_inj]

/-- The memory at reset is canonical. -/
theorem reset_mem_wf : Memory.wf State.reset.mem = true := rfl

end Sys2Proof.Machine
end

