-- ==== Sys2Proof/Laws/Ops.lean ====
section
/-! SUPPORT. What each shared operation can do, said once: callers cite these and do not unfold the operation. -/

namespace Sys2Proof.Machine

/-! ### `inRead` -/

/-- All that `InRead()` can answer: the next byte, consumed; or EofWord, with nothing changed. -/
theorem inRead_cases {s s' : State} {c : Word} (h : s.inRead = some (c, s')) :
    (∃ b rest, s.input = b :: rest ∧ c = zextByte b ∧
      s' = { s with input := rest, consumed := s.consumed + 1 }) ∨
    (s.input = [] ∧ s.inputEnded = true ∧ c = Config.eofWord ∧ s' = s) := by
  unfold State.inRead at h
  split at h
  · next b rest hin =>
    simp only [Option.some.injEq, Prod.mk.injEq] at h
    exact .inl ⟨b, rest, hin, h.1.symm, h.2.symm⟩
  · next hin =>
    split at h
    · next he =>
      simp only [Option.some.injEq, Prod.mk.injEq] at h
      exact .inr ⟨hin, he, h.1.symm, h.2.symm⟩
    · cases h

/-- `InRead()` waits exactly when nothing remains of a stream that may still grow. -/
theorem inRead_eq_none {s : State} : s.inRead = none ↔ s.input = [] ∧ s.inputEnded = false := by
  unfold State.inRead
  split
  · next hin => simp [hin]
  · next hin => simp [hin]

/-- With a byte next, `InRead()` takes it. -/
theorem inRead_of_cons {s : State} {b : Byte} {rest : List Byte} (h : s.input = b :: rest) :
    s.inRead = some (zextByte b, { s with input := rest, consumed := s.consumed + 1 }) := by
  simp [State.inRead, h]

/-- At the end of the stream `InRead()` answers EofWord. -/
theorem inRead_of_ended {s : State} (h : s.input = []) (he : s.inputEnded = true) :
    s.inRead = some (Config.eofWord, s) := by
  simp [State.inRead, h, he]

/-! ### The poll and the polling read: what they leave alone -/

/-- All that a poll can do: clear the status cell, or consume a character into the data cell. -/
theorem pollWith_cases (draw : Bool) (s : State) :
    s.pollWith draw = s.memWrite kbsrAddr 0x0000 ∨
    ∃ c s', draw = true ∧ s.inRead = some (c, s') ∧
      s.pollWith draw = (s'.memWrite kbsrAddr kbsrReady).memWrite kbdrAddr c := by
  unfold State.pollWith
  split
  · next c s' h => exact .inr ⟨c, s', rfl, h, rfl⟩
  · exact .inl rfl

@[simp] theorem pollWith_regs (draw : Bool) (s : State) : (s.pollWith draw).regs = s.regs := by
  rcases pollWith_cases draw s with h | ⟨c, s', -, hr, h⟩
  · rw [h]; rfl
  · rw [h]; rcases inRead_cases hr with ⟨b, rest, -, -, rfl⟩ | ⟨-, -, -, rfl⟩ <;> rfl

@[simp] theorem pollWith_pc (draw : Bool) (s : State) : (s.pollWith draw).pc = s.pc := by
  rcases pollWith_cases draw s with h | ⟨c, s', -, hr, h⟩
  · rw [h]; rfl
  · rw [h]; rcases inRead_cases hr with ⟨b, rest, -, -, rfl⟩ | ⟨-, -, -, rfl⟩ <;> rfl

@[simp] theorem pollWith_ir (draw : Bool) (s : State) : (s.pollWith draw).ir = s.ir := by
  rcases pollWith_cases draw s with h | ⟨c, s', -, hr, h⟩
  · rw [h]; rfl
  · rw [h]; rcases inRead_cases hr with ⟨b, rest, -, -, rfl⟩ | ⟨-, -, -, rfl⟩ <;> rfl

@[simp] theorem pollWith_cond (draw : Bool) (s : State) : (s.pollWith draw).cond = s.cond := by
  rcases pollWith_cases draw s with h | ⟨c, s', -, hr, h⟩
  · rw [h]; rfl
  · rw [h]; rcases inRead_cases hr with ⟨b, rest, -, -, rfl⟩ | ⟨-, -, -, rfl⟩ <;> rfl

@[simp] theorem pollWith_run (draw : Bool) (s : State) : (s.pollWith draw).run = s.run := by
  rcases pollWith_cases draw s with h | ⟨c, s', -, hr, h⟩
  · rw [h]; rfl
  · rw [h]; rcases inRead_cases hr with ⟨b, rest, -, -, rfl⟩ | ⟨-, -, -, rfl⟩ <;> rfl

@[simp] theorem pollWith_inputEnded (draw : Bool) (s : State) : (s.pollWith draw).inputEnded = s.inputEnded := by
  rcases pollWith_cases draw s with h | ⟨c, s', -, hr, h⟩
  · rw [h]; rfl
  · rw [h]; rcases inRead_cases hr with ⟨b, rest, -, -, rfl⟩ | ⟨-, -, -, rfl⟩ <;> rfl

@[simp] theorem pollWith_output (draw : Bool) (s : State) : (s.pollWith draw).output = s.output := by
  rcases pollWith_cases draw s with h | ⟨c, s', -, hr, h⟩
  · rw [h]; rfl
  · rw [h]; rcases inRead_cases hr with ⟨b, rest, -, -, rfl⟩ | ⟨-, -, -, rfl⟩ <;> rfl

@[simp] theorem pollWith_flushed (draw : Bool) (s : State) : (s.pollWith draw).flushed = s.flushed := by
  rcases pollWith_cases draw s with h | ⟨c, s', -, hr, h⟩
  · rw [h]; rfl
  · rw [h]; rcases inRead_cases hr with ⟨b, rest, -, -, rfl⟩ | ⟨-, -, -, rfl⟩ <;> rfl

@[simp] theorem pollWith_routine (draw : Bool) (s : State) : (s.pollWith draw).routine = s.routine := by
  rcases pollWith_cases draw s with h | ⟨c, s', -, hr, h⟩
  · rw [h]; rfl
  · rw [h]; rcases inRead_cases hr with ⟨b, rest, -, -, rfl⟩ | ⟨-, -, -, rfl⟩ <;> rfl

@[simp] theorem poll_regs (s : State) : s.poll.regs = s.regs := by
  simp [State.poll]

@[simp] theorem poll_pc (s : State) : s.poll.pc = s.pc := by
  simp [State.poll]

@[simp] theorem poll_ir (s : State) : s.poll.ir = s.ir := by
  simp [State.poll]

@[simp] theorem poll_cond (s : State) : s.poll.cond = s.cond := by
  simp [State.poll]

@[simp] theorem poll_run (s : State) : s.poll.run = s.run := by
  simp [State.poll]

@[simp] theorem poll_inputEnded (s : State) : s.poll.inputEnded = s.inputEnded := by
  simp [State.poll]

@[simp] theorem poll_output (s : State) : s.poll.output = s.output := by
  simp [State.poll]

@[simp] theorem poll_flushed (s : State) : s.poll.flushed = s.flushed := by
  simp [State.poll]

@[simp] theorem poll_routine (s : State) : s.poll.routine = s.routine := by
  simp [State.poll]

@[simp] theorem memRead_regs (s : State) (a : Word) : (s.memRead a).2.regs = s.regs := by
  unfold State.memRead; split <;> simp

@[simp] theorem memRead_pc (s : State) (a : Word) : (s.memRead a).2.pc = s.pc := by
  unfold State.memRead; split <;> simp

@[simp] theorem memRead_ir (s : State) (a : Word) : (s.memRead a).2.ir = s.ir := by
  unfold State.memRead; split <;> simp

@[simp] theorem memRead_cond (s : State) (a : Word) : (s.memRead a).2.cond = s.cond := by
  unfold State.memRead; split <;> simp

@[simp] theorem memRead_run (s : State) (a : Word) : (s.memRead a).2.run = s.run := by
  unfold State.memRead; split <;> simp

@[simp] theorem memRead_inputEnded (s : State) (a : Word) : (s.memRead a).2.inputEnded = s.inputEnded := by
  unfold State.memRead; split <;> simp

@[simp] theorem memRead_output (s : State) (a : Word) : (s.memRead a).2.output = s.output := by
  unfold State.memRead; split <;> simp

@[simp] theorem memRead_flushed (s : State) (a : Word) : (s.memRead a).2.flushed = s.flushed := by
  unfold State.memRead; split <;> simp

@[simp] theorem memRead_routine (s : State) (a : Word) : (s.memRead a).2.routine = s.routine := by
  unfold State.memRead; split <;> simp

@[simp] theorem memRead_reg (s : State) (a : Word) (i : Reg) : (s.memRead a).2.reg i = s.reg i := by
  simp [State.reg]

/-- A poll keeps the canonical form of the memory. -/
theorem pollWith_wf {draw : Bool} {s : State} (h : Memory.wf s.mem = true) :
    Memory.wf (s.pollWith draw).mem = true := by
  rcases pollWith_cases draw s with e | ⟨c, s', -, hr, e⟩
  · rw [e]; exact Memory.write_wf h _ _
  · rw [e]
    have h' : Memory.wf s'.mem = true := by
      rcases inRead_cases hr with ⟨b, rest, -, -, rfl⟩ | ⟨-, -, -, rfl⟩ <;> exact h
    exact Memory.write_wf (Memory.write_wf h' _ _) _ _

/-- A polling read keeps the canonical form of the memory. -/
theorem memRead_wf {s : State} (a : Word) (h : Memory.wf s.mem = true) :
    Memory.wf (s.memRead a).2.mem = true := by
  unfold State.memRead
  split
  · exact pollWith_wf h
  · exact h

/-- A store keeps the canonical form of the memory. -/
theorem memWrite_wf {s : State} (a v : Word) (h : Memory.wf s.mem = true) :
    Memory.wf (s.memWrite a v).mem = true :=
  Memory.write_wf h a v

/-! ### Fetch -/

theorem fetch_pc (s : State) : s.fetch.pc = s.pc + 1 := rfl

theorem fetch_ir (s : State) : s.fetch.ir = (s.memRead s.pc).1 := rfl

theorem fetch_mem (s : State) : s.fetch.mem = (s.memRead s.pc).2.mem := rfl

@[simp] theorem fetch_regs (s : State) : s.fetch.regs = s.regs := memRead_regs s s.pc

@[simp] theorem fetch_cond (s : State) : s.fetch.cond = s.cond := memRead_cond s s.pc

@[simp] theorem fetch_run (s : State) : s.fetch.run = s.run := memRead_run s s.pc

@[simp] theorem fetch_inputEnded (s : State) : s.fetch.inputEnded = s.inputEnded := memRead_inputEnded s s.pc

@[simp] theorem fetch_output (s : State) : s.fetch.output = s.output := memRead_output s s.pc

@[simp] theorem fetch_flushed (s : State) : s.fetch.flushed = s.flushed := memRead_flushed s s.pc

@[simp] theorem fetch_routine (s : State) : s.fetch.routine = s.routine := memRead_routine s s.pc

/-! ### The write of a destination register -/

/-- The destination holds the value, and every other register is left alone. -/
theorem writeDest_reg (s : State) (dr i : Reg) (v : Word) :
    (s.writeDest dr v).reg i = if dr = i then v else s.reg i := by
  simp [State.writeDest, State.setcc, setReg_reg]

/-- The flags are the value's. -/
@[simp] theorem writeDest_cond (s : State) (dr : Reg) (v : Word) : (s.writeDest dr v).cond = flagOf v := by
  simp [State.writeDest, State.setcc, setReg_reg_self]

@[simp] theorem writeDest_pc (s : State) (dr : Reg) (v : Word) : (s.writeDest dr v).pc = s.pc := rfl

@[simp] theorem writeDest_ir (s : State) (dr : Reg) (v : Word) : (s.writeDest dr v).ir = s.ir := rfl

@[simp] theorem writeDest_run (s : State) (dr : Reg) (v : Word) : (s.writeDest dr v).run = s.run := rfl

@[simp] theorem writeDest_mem (s : State) (dr : Reg) (v : Word) : (s.writeDest dr v).mem = s.mem := rfl

@[simp] theorem writeDest_input (s : State) (dr : Reg) (v : Word) : (s.writeDest dr v).input = s.input := rfl

@[simp] theorem writeDest_inputEnded (s : State) (dr : Reg) (v : Word) : (s.writeDest dr v).inputEnded = s.inputEnded := rfl

@[simp] theorem writeDest_consumed (s : State) (dr : Reg) (v : Word) : (s.writeDest dr v).consumed = s.consumed := rfl

@[simp] theorem writeDest_output (s : State) (dr : Reg) (v : Word) : (s.writeDest dr v).output = s.output := rfl

@[simp] theorem writeDest_flushed (s : State) (dr : Reg) (v : Word) : (s.writeDest dr v).flushed = s.flushed := rfl

@[simp] theorem writeDest_routine (s : State) (dr : Reg) (v : Word) : (s.writeDest dr v).routine = s.routine := rfl

@[simp] theorem writeDest_polls (s : State) (dr : Reg) (v : Word) : (s.writeDest dr v).polls = s.polls := rfl

@[simp] theorem writeDest_cell (s : State) (dr : Reg) (v a : Word) : (s.writeDest dr v).cell a = s.cell a := rfl

/-- The flag of a value is one of the three. -/
theorem flagOf_legal (v : Word) : flagOf v = flagP ∨ flagOf v = flagZ ∨ flagOf v = flagN := by
  unfold flagOf; split
  · exact .inr (.inl rfl)
  · split
    · exact .inr (.inr rfl)
    · exact .inl rfl

/-! ### The end of a routine, and a character taken -/

@[simp] theorem endRoutine_regs (s : State) : s.endRoutine.regs = s.regs := rfl

@[simp] theorem endRoutine_pc (s : State) : s.endRoutine.pc = s.pc := rfl

@[simp] theorem endRoutine_ir (s : State) : s.endRoutine.ir = s.ir := rfl

@[simp] theorem endRoutine_cond (s : State) : s.endRoutine.cond = s.cond := rfl

@[simp] theorem endRoutine_run (s : State) : s.endRoutine.run = s.run := rfl

@[simp] theorem endRoutine_mem (s : State) : s.endRoutine.mem = s.mem := rfl

@[simp] theorem endRoutine_input (s : State) : s.endRoutine.input = s.input := rfl

@[simp] theorem endRoutine_inputEnded (s : State) : s.endRoutine.inputEnded = s.inputEnded := rfl

@[simp] theorem endRoutine_consumed (s : State) : s.endRoutine.consumed = s.consumed := rfl

@[simp] theorem endRoutine_output (s : State) : s.endRoutine.output = s.output := rfl

@[simp] theorem endRoutine_flushed (s : State) : s.endRoutine.flushed = s.output.length := rfl

@[simp] theorem endRoutine_routine (s : State) : s.endRoutine.routine = none := rfl

@[simp] theorem endRoutine_polls (s : State) : s.endRoutine.polls = s.polls := rfl

@[simp] theorem endRoutine_reg (s : State) (i : Reg) : s.endRoutine.reg i = s.reg i := rfl

@[simp] theorem endRoutine_cell (s : State) (a : Word) : s.endRoutine.cell a = s.cell a := rfl

@[simp] theorem takeChar_pc (s : State) (c : Word) : (s.takeChar c).pc = s.pc := rfl

@[simp] theorem takeChar_ir (s : State) (c : Word) : (s.takeChar c).ir = s.ir := rfl

@[simp] theorem takeChar_run (s : State) (c : Word) : (s.takeChar c).run = s.run := rfl

@[simp] theorem takeChar_mem (s : State) (c : Word) : (s.takeChar c).mem = s.mem := rfl

@[simp] theorem takeChar_input (s : State) (c : Word) : (s.takeChar c).input = s.input := rfl

@[simp] theorem takeChar_inputEnded (s : State) (c : Word) : (s.takeChar c).inputEnded = s.inputEnded := rfl

@[simp] theorem takeChar_consumed (s : State) (c : Word) : (s.takeChar c).consumed = s.consumed := rfl

@[simp] theorem takeChar_output (s : State) (c : Word) : (s.takeChar c).output = s.output := rfl

@[simp] theorem takeChar_flushed (s : State) (c : Word) : (s.takeChar c).flushed = s.output.length := rfl

@[simp] theorem takeChar_routine (s : State) (c : Word) : (s.takeChar c).routine = none := rfl

@[simp] theorem takeChar_polls (s : State) (c : Word) : (s.takeChar c).polls = s.polls := rfl

/-- The character is in R0, and every other register is left alone. -/
theorem takeChar_reg (s : State) (c : Word) (i : Reg) : (s.takeChar c).reg i = if 0#3 = i then c else s.reg i :=
  writeDest_reg s 0#3 i c

@[simp] theorem takeChar_cond (s : State) (c : Word) : (s.takeChar c).cond = flagOf c := writeDest_cond s 0#3 c

@[simp] theorem takeChar_cell (s : State) (c a : Word) : (s.takeChar c).cell a = s.cell a := rfl

/-- What `InRead()` leaves alone, whatever it answers. -/
theorem inRead_frame {s s' : State} {c : Word} (h : s.inRead = some (c, s')) :
    s' = { s with input := s'.input, consumed := s'.consumed } := by
  rcases inRead_cases h with ⟨b, rest, -, -, rfl⟩ | ⟨-, -, -, rfl⟩ <;> rfl

/-! ### The load of a destination register -/

/-- The destination holds the word read, and every other register is left alone. -/
theorem load_reg (s : State) (dr i : Reg) (ea : Word) :
    (s.load dr ea).reg i = if dr = i then (s.memRead ea).1 else s.reg i := by
  simp [State.load, writeDest_reg]

/-- The flags are the word's. -/
@[simp] theorem load_cond (s : State) (dr : Reg) (ea : Word) : (s.load dr ea).cond = flagOf (s.memRead ea).1 := by
  simp [State.load]

/-- The memory is that of the read. -/
@[simp] theorem load_mem (s : State) (dr : Reg) (ea : Word) : (s.load dr ea).mem = (s.memRead ea).2.mem := rfl

@[simp] theorem load_cell (s : State) (dr : Reg) (ea a : Word) : (s.load dr ea).cell a = (s.memRead ea).2.cell a := rfl

@[simp] theorem load_pc (s : State) (dr : Reg) (ea : Word) : (s.load dr ea).pc = s.pc := memRead_pc s ea

@[simp] theorem load_ir (s : State) (dr : Reg) (ea : Word) : (s.load dr ea).ir = s.ir := memRead_ir s ea

@[simp] theorem load_run (s : State) (dr : Reg) (ea : Word) : (s.load dr ea).run = s.run := memRead_run s ea

@[simp] theorem load_inputEnded (s : State) (dr : Reg) (ea : Word) : (s.load dr ea).inputEnded = s.inputEnded := memRead_inputEnded s ea

@[simp] theorem load_output (s : State) (dr : Reg) (ea : Word) : (s.load dr ea).output = s.output := memRead_output s ea

@[simp] theorem load_flushed (s : State) (dr : Reg) (ea : Word) : (s.load dr ea).flushed = s.flushed := memRead_flushed s ea

@[simp] theorem load_routine (s : State) (dr : Reg) (ea : Word) : (s.load dr ea).routine = s.routine := memRead_routine s ea

/-! ### The register-indirect jump and the link -/

/-- R7 holds the fetch-incremented PC, and every other register is left alone. -/
theorem link_reg (s : State) (i : Reg) : s.link.reg i = if 7#3 = i then s.pc else s.reg i := by
  simp [State.link, linkReg, setReg_reg]

/-! ### The trap routines' bodies -/

/-- All that GETC can do once it reads: complete with the character, or hold. -/
theorem getcBody_cases (s : State) :
    (∃ c s', s.inRead = some (c, s') ∧ s.getcBody = s'.takeChar c) ∨
    (s.inRead = none ∧ s.getcBody = s.setRoutine (some .getc)) := by
  unfold State.getcBody
  split
  · next c s' h => exact .inl ⟨c, s', h, rfl⟩
  · next h => exact .inr ⟨h, rfl⟩

/-- All that IN can do once it reads: echo and complete, or hold. -/
theorem inBody_cases (s : State) :
    (∃ c s', s.inRead = some (c, s') ∧ s.inBody = (s'.out [lowByte c]).takeChar c) ∨
    (s.inRead = none ∧ s.inBody = s.setRoutine (some .inp)) := by
  unfold State.inBody
  split
  · next c s' h => exact .inl ⟨c, s', h, rfl⟩
  · next h => exact .inr ⟨h, rfl⟩

/-- The string at an address depends on the memory alone. -/
theorem stringWords_congr {s s' : State} (h : s'.mem = s.mem) (a : Word) (n : Nat) :
    stringWords s' a n = stringWords s a n := by
  induction n generalizing a with
  | zero => rfl
  | succ n ih =>
    have hc : s'.cell a = s.cell a := by simp [State.cell, h]
    simp only [stringWords]
    rw [hc, ih]

/-- All that PUTS and PUTSP can do in one go: write the string and end, or write a lap and stay. Cite this (a proof by
rfl that unfolds `lap` runs into its 65,536 cells). -/
theorem stringBody_cases (r : Routine) (bytes : List Word → List Byte) (s : State) :
    s.stringBody r bytes = (s.out (bytes (stringWords s (s.reg 0#3) lap))).endRoutine ∨
    s.stringBody r bytes = (s.out (bytes (stringWords s (s.reg 0#3) lap))).setRoutine (some r) := by
  unfold State.stringBody
  split
  · exact .inl rfl
  · exact .inr rfl

/-! ### The step -/

/-- All that a step can do: a running machine either goes on with a routine or fetches and executes. -/
theorem step_cases {s t : State} (h : step s = .next t) :
    s.run = .running ∧
    ((∃ r, s.routine = some r ∧ resume r s = .next t) ∨
      (s.routine = none ∧ exec (decode s.fetch.ir) s.fetch = .next t)) := by
  unfold step at h
  split at h
  · cases h
  · cases h
  · next hr =>
    refine ⟨hr, ?_⟩
    split at h
    · next r e => exact .inl ⟨r, e, h⟩
    · next e => exact .inr ⟨e, h⟩

/-- A run of one more step goes on from the next state. -/
theorem run_of_step {M : Host.Core} {s t : M.State} (h : M.step s = .next t) (n : Nat) :
    M.run (n + 1) s = M.run n t := by
  simp only [Host.Core.run, h]

/-- The same for this machine. -/
theorem core_run_of_step {s t : State} (h : step s = .next t) (n : Nat) :
    Sys2Proof.core.run (n + 1) s = Sys2Proof.core.run n t :=
  run_of_step (M := Sys2Proof.core) h n

end Sys2Proof.Machine
end

