-- ==== Sys2Proof/Laws/PerInstr.lean ====
section
/-! SUPPORT. Facts about every instruction as syntax, one lemma per constructor. The family `EncodeOpcode`: the word the
encoder writes carries the instruction's opcode in bits 15:12 (30_encoding.md R61, R62). -/

namespace Sys2Proof

/-- The opcode of an instruction (30_encoding.md R61). -/
def Laws.EncodeOpcode.opcode : Instr → Opcode
  | .br _ _ => .br
  | .addReg _ _ _ => .add
  | .addImm _ _ _ => .add
  | .ld _ _ => .ld
  | .st _ _ => .st
  | .jsr _ => .jsr
  | .jsrr _ => .jsr
  | .andReg _ _ _ => .and
  | .andImm _ _ _ => .and
  | .ldr _ _ _ => .ldr
  | .str _ _ _ => .str
  | .rti => .rti
  | .not _ _ => .not
  | .ldi _ _ => .ldi
  | .sti _ _ => .sti
  | .jmp _ => .jmp
  | .ret => .jmp
  | .res => .res
  | .lea _ _ => .lea
  | .trapGetc => .trap
  | .trapOut => .trap
  | .trapPuts => .trap
  | .trapIn => .trap
  | .trapPutsp => .trap
  | .trapHalt => .trap
  | .trapOther _ => .trap

/-- The encoder writes the instruction's opcode. -/
def Laws.EncodeOpcode.Statement (i : Instr) : Prop :=
  opcodeOf (encode i) = Laws.EncodeOpcode.opcode i

theorem Laws.EncodeOpcode.br (cond : BitVec 3) (off : BitVec 9) : Laws.EncodeOpcode.Statement (.br cond off) := by
  exact opcodeOf_withOpcode _ _ (by simp [field_or, field_place_beside])

theorem Laws.EncodeOpcode.addReg (dr : Reg) (sr1 : Reg) (sr2 : Reg) : Laws.EncodeOpcode.Statement (.addReg dr sr1 sr2) := by
  exact opcodeOf_withOpcode _ _ (by simp [field_or, field_place_beside])

theorem Laws.EncodeOpcode.addImm (dr : Reg) (sr1 : Reg) (imm : BitVec 5) : Laws.EncodeOpcode.Statement (.addImm dr sr1 imm) := by
  exact opcodeOf_withOpcode _ _ (by simp [field_or, field_place_beside])

theorem Laws.EncodeOpcode.ld (dr : Reg) (off : BitVec 9) : Laws.EncodeOpcode.Statement (.ld dr off) := by
  exact opcodeOf_withOpcode _ _ (by simp [field_or, field_place_beside])

theorem Laws.EncodeOpcode.st (sr : Reg) (off : BitVec 9) : Laws.EncodeOpcode.Statement (.st sr off) := by
  exact opcodeOf_withOpcode _ _ (by simp [field_or, field_place_beside])

theorem Laws.EncodeOpcode.jsr (off : BitVec 11) : Laws.EncodeOpcode.Statement (.jsr off) := by
  exact opcodeOf_withOpcode _ _ (by simp [field_or, field_place_beside])

theorem Laws.EncodeOpcode.jsrr (base : Reg) : Laws.EncodeOpcode.Statement (.jsrr base) := by
  exact opcodeOf_withOpcode _ _ (by simp [field_place_beside])

theorem Laws.EncodeOpcode.andReg (dr : Reg) (sr1 : Reg) (sr2 : Reg) : Laws.EncodeOpcode.Statement (.andReg dr sr1 sr2) := by
  exact opcodeOf_withOpcode _ _ (by simp [field_or, field_place_beside])

theorem Laws.EncodeOpcode.andImm (dr : Reg) (sr1 : Reg) (imm : BitVec 5) : Laws.EncodeOpcode.Statement (.andImm dr sr1 imm) := by
  exact opcodeOf_withOpcode _ _ (by simp [field_or, field_place_beside])

theorem Laws.EncodeOpcode.ldr (dr : Reg) (base : Reg) (off : BitVec 6) : Laws.EncodeOpcode.Statement (.ldr dr base off) := by
  exact opcodeOf_withOpcode _ _ (by simp [field_or, field_place_beside])

theorem Laws.EncodeOpcode.str (sr : Reg) (base : Reg) (off : BitVec 6) : Laws.EncodeOpcode.Statement (.str sr base off) := by
  exact opcodeOf_withOpcode _ _ (by simp [field_or, field_place_beside])

theorem Laws.EncodeOpcode.rti : Laws.EncodeOpcode.Statement .rti := by
  exact opcodeOf_withOpcode _ _ (field_zero 12 4)

theorem Laws.EncodeOpcode.not (dr : Reg) (sr : Reg) : Laws.EncodeOpcode.Statement (.not dr sr) := by
  exact opcodeOf_withOpcode _ _ (by simp [field_or, field_place_beside])

theorem Laws.EncodeOpcode.ldi (dr : Reg) (off : BitVec 9) : Laws.EncodeOpcode.Statement (.ldi dr off) := by
  exact opcodeOf_withOpcode _ _ (by simp [field_or, field_place_beside])

theorem Laws.EncodeOpcode.sti (sr : Reg) (off : BitVec 9) : Laws.EncodeOpcode.Statement (.sti sr off) := by
  exact opcodeOf_withOpcode _ _ (by simp [field_or, field_place_beside])

theorem Laws.EncodeOpcode.jmp (base : Reg) : Laws.EncodeOpcode.Statement (.jmp base) := by
  exact opcodeOf_withOpcode _ _ (by simp [field_place_beside])

theorem Laws.EncodeOpcode.ret : Laws.EncodeOpcode.Statement .ret := by
  exact opcodeOf_withOpcode _ _ (by simp [field_place_beside])

theorem Laws.EncodeOpcode.res : Laws.EncodeOpcode.Statement .res := by
  exact opcodeOf_withOpcode _ _ (field_zero 12 4)

theorem Laws.EncodeOpcode.lea (dr : Reg) (off : BitVec 9) : Laws.EncodeOpcode.Statement (.lea dr off) := by
  exact opcodeOf_withOpcode _ _ (by simp [field_or, field_place_beside])

theorem Laws.EncodeOpcode.trapGetc : Laws.EncodeOpcode.Statement .trapGetc := by
  exact opcodeOf_withOpcode _ _ (by simp [field_place_beside])

theorem Laws.EncodeOpcode.trapOut : Laws.EncodeOpcode.Statement .trapOut := by
  exact opcodeOf_withOpcode _ _ (by simp [field_place_beside])

theorem Laws.EncodeOpcode.trapPuts : Laws.EncodeOpcode.Statement .trapPuts := by
  exact opcodeOf_withOpcode _ _ (by simp [field_place_beside])

theorem Laws.EncodeOpcode.trapIn : Laws.EncodeOpcode.Statement .trapIn := by
  exact opcodeOf_withOpcode _ _ (by simp [field_place_beside])

theorem Laws.EncodeOpcode.trapPutsp : Laws.EncodeOpcode.Statement .trapPutsp := by
  exact opcodeOf_withOpcode _ _ (by simp [field_place_beside])

theorem Laws.EncodeOpcode.trapHalt : Laws.EncodeOpcode.Statement .trapHalt := by
  exact opcodeOf_withOpcode _ _ (by simp [field_place_beside])

theorem Laws.EncodeOpcode.trapOther (v : Byte) : Laws.EncodeOpcode.Statement (.trapOther v) := by
  exact opcodeOf_withOpcode _ _ (by simp [field_place_beside])

end Sys2Proof
end

