-- ==== Sys2Proof/Laws/Safety.lean ====
section
/-! SUPPORT. The small laws of runs: an induction over the events of a run said once, and what holds of every moment at
which the host may stop one. -/

namespace Sys2Proof.Machine

/-- A launched state is reachable. -/
theorem reachable_of_launch {images : List Image} {input : List Byte} {ended : Bool} {s : State}
    (h : launch images input ended = some s) : Reachable s :=
  ⟨images, input, ended, s, h, .refl⟩

/-- One more event keeps a state reachable. -/
theorem reachable_of_moves {s t : State} (h : Reachable s) (e : Moves s t) : Reachable t := by
  obtain ⟨images, input, ended, s0, hl, hr⟩ := h
  exact ⟨images, input, ended, s0, hl, hr.tail e⟩

/-- What holds after every launch and survives every event holds of every reachable state. -/
theorem reachable_induction {P : State → Prop} {t : State} (h : Reachable t)
    (launched : ∀ images input ended s, launch images input ended = some s → P s)
    (event : ∀ s t, P s → Moves s t → P t) : P t := by
  obtain ⟨images, input, ended, s0, hl, hr⟩ := h
  induction hr with
  | refl => exact launched _ _ _ _ hl
  | tail _ e ih => exact event _ _ ih e

/-! ### The input is consumed and never given back -/

theorem inRead_consumed_le {s s' : State} {c : Word} (h : s.inRead = some (c, s')) : s.consumed ≤ s'.consumed := by
  rcases inRead_cases h with ⟨b, rest, -, -, rfl⟩ | ⟨-, -, -, rfl⟩
  · exact Nat.le_succ _
  · exact le_rfl

theorem memRead_consumed_le (s : State) (a : Word) : s.consumed ≤ (s.memRead a).2.consumed := by
  unfold State.memRead
  split
  · rcases pollWith_cases (Config.pollAnswer s.polls) s.countPoll with h | ⟨c, s', -, hr, h⟩
    · exact (congrArg State.consumed h).ge
    · exact (inRead_consumed_le hr).trans (congrArg State.consumed h).ge
  · exact le_rfl

theorem getcBody_consumed_le (s : State) : s.consumed ≤ s.getcBody.consumed := by
  rcases getcBody_cases s with ⟨c, s', hr, h⟩ | ⟨-, h⟩ <;> rw [h]
  · exact inRead_consumed_le (s' := s') hr
  · exact le_rfl

theorem inBody_consumed_le (s : State) : s.consumed ≤ s.inBody.consumed := by
  rcases inBody_cases s with ⟨c, s', hr, h⟩ | ⟨-, h⟩ <;> rw [h]
  · exact inRead_consumed_le (s' := s') hr
  · exact le_rfl

theorem stringBody_consumed (r : Routine) (f : List Word → List Byte) (s : State) :
    (s.stringBody r f).consumed = s.consumed := by
  unfold State.stringBody
  split <;> rfl

/-- An instruction only consumes input. -/
theorem exec_consumed_le {i : Instr} {s t : State} (h : exec i s = .next t) : s.consumed ≤ t.consumed := by
  cases i with
  | ld dr off => cases h; exact memRead_consumed_le s _
  | ldr dr base off => cases h; exact memRead_consumed_le s _
  | ldi dr off => cases h; exact (memRead_consumed_le s _).trans (memRead_consumed_le _ _)
  | sti sr off => cases h; exact memRead_consumed_le s _
  | br cond off => cases h; split <;> exact le_rfl
  | trapGetc => cases h; exact getcBody_consumed_le s
  | trapIn => cases h; exact inBody_consumed_le (s.out Config.inPrompt)
  | trapPuts => cases h; exact (stringBody_consumed _ _ s).ge
  | trapPutsp => cases h; exact (stringBody_consumed _ _ s).ge
  | _ => cases h; exact le_rfl

/-- A routine's continuation only consumes input. -/
theorem resume_consumed_le {r : Routine} {s t : State} (h : resume r s = .next t) : s.consumed ≤ t.consumed := by
  cases r <;> simp only [resume] at h
  · split at h <;> cases h; exact getcBody_consumed_le s
  · split at h <;> cases h; exact inBody_consumed_le s
  · cases h; exact (stringBody_consumed _ _ s).ge
  · cases h; exact (stringBody_consumed _ _ s).ge

/-- A step only consumes input. -/
theorem step_consumed_le {s t : State} (h : step s = .next t) : s.consumed ≤ t.consumed := by
  obtain ⟨-, ⟨r, -, h⟩ | ⟨-, h⟩⟩ := step_cases h
  · exact resume_consumed_le h
  · exact le_trans (memRead_consumed_le s s.pc) (exec_consumed_le (s := s.fetch) h)

/-! ### The host's stop -/

/-- Only a running machine steps. -/
theorem running_of_step {s t : State} (h : step s = .next t) : s.run = .running := (step_cases h).1

/-- Only a running machine can be stopped (80_interfaces.md R266). -/
theorem StopPoint.isRunning {s : State} {produced : List Byte} {consumed : Nat}
    (h : StopPoint s produced consumed) : s.run = .running := by
  cases h with
  | between hr => exact hr
  | inside hs => exact running_of_step hs

/-- Whenever the run is stopped, what was written before the cycle has been produced. -/
theorem StopPoint.output_prefix {s : State} {produced : List Byte} {consumed : Nat}
    (h : StopPoint s produced consumed) : s.output <+: produced := by
  cases h with
  | between => exact List.prefix_rfl
  | inside _ hp => exact hp

/-- Whenever the run is stopped, what was consumed before the cycle has been consumed. -/
theorem StopPoint.consumed_le {s : State} {produced : List Byte} {consumed : Nat}
    (h : StopPoint s produced consumed) : s.consumed ≤ consumed := by
  cases h with
  | between => exact le_rfl
  | inside _ _ _ hc => exact hc

/-- Every prefix of an output that may be observed may be observed too (80_interfaces.md R266). -/
theorem StoppedOutput.shorten {s : State} {o o' : List Byte} {consumed : Nat} (h : StoppedOutput s o consumed)
    (ho : o' <+: o) : StoppedOutput s o' consumed := by
  obtain ⟨produced, hp, hpre⟩ := h
  exact ⟨produced, hp, ho.trans hpre⟩

/-! ### Runs that never end, and success -/

/-- What survives every event holds of every state that is reached. -/
theorem reaches_induction {P : State → Prop} {s t : State} (h : Reaches s t) (hs : P s)
    (event : ∀ u v, P u → Moves u v → P v) : P t := by
  induction h with
  | refl => exact hs
  | tail _ e ih => exact event _ _ ih e

/-- Every state of a run that never ends is reached. -/
theorem NeverEnds.reaches {s : State} {h : Nat → State} (hn : NeverEnds s h) (n : Nat) : Reaches s (h n) := by
  induction n with
  | zero => rw [hn.start]; exact .refl
  | succ n ih =>
    rcases hn.event n with e | ⟨-, e⟩
    · exact ih.tail e
    · rw [e]; exact ih

/-- A run in which every step lowers a measure, no host move raises it and nothing holds does end. -/
theorem not_neverEnds {s : State} {P : State → Prop} {size : State → Nat} (hs : P s)
    (event : ∀ u v, P u → Moves u v → P v) (lower : ∀ u v, P u → step u = .next v → size v < size u)
    (keep : ∀ u v, P u → Moves u v → size v ≤ size u) (noHold : ∀ u, P u → step u ≠ .fault .hold)
    (h : Nat → State) : ¬ NeverEnds s h := by
  intro hn
  have hP : ∀ n, P (h n) := fun n => reaches_induction (hn.reaches n) hs event
  have le : ∀ n k, size (h (n + k)) ≤ size (h n) := by
    intro n k
    induction k with
    | zero => exact le_rfl
    | succ k ih =>
      rcases hn.event (n + k) with e | ⟨e, -⟩
      · exact (keep _ _ (hP _) e).trans ih
      · exact absurd e (noHold _ (hP _))
  have bound : ∀ k n, ¬ size (h n) ≤ k := by
    intro k
    induction k with
    | zero =>
      intro n hk
      obtain ⟨m, hm, e | e⟩ := hn.active n
      · have h1 := lower _ _ (hP m) e
        have h2 := le n (m - n)
        rw [Nat.add_sub_cancel' hm] at h2
        omega
      · exact noHold _ (hP m) e
    | succ k ih =>
      intro n hk
      obtain ⟨m, hm, e | e⟩ := hn.active n
      · have h1 := lower _ _ (hP m) e
        have h2 := le n (m - n)
        rw [Nat.add_sub_cancel' hm] at h2
        exact ih (m + 1) (by omega)
      · exact noHold _ (hP m) e
  exact bound _ 0 le_rfl

/-- How a success claim is proved: an invariant of every event, a measure that every step lowers, no hold and no fault in
the invariant, and the postcondition where it is HALTED. -/
theorem haltsWith_of_measure {s : State} {post : List Byte → Final → Prop} {P : State → Prop} {size : State → Nat}
    (hs : P s) (event : ∀ u v, P u → Moves u v → P v) (lower : ∀ u v, P u → step u = .next v → size v < size u)
    (keep : ∀ u v, P u → Moves u v → size v ≤ size u) (noHold : ∀ u, P u → step u ≠ .fault .hold)
    (noFault : ∀ u a, P u → u.run ≠ .faulted a) (done : ∀ u, P u → u.run = .halted → post u.output u.final) :
    HaltsWith s post :=
  ⟨not_neverEnds hs event lower keep noHold,
    fun t a h => noFault t a (reaches_induction h hs event),
    fun t h => done t (reaches_induction h hs event)⟩

end Sys2Proof.Machine
end

