-- ==== Sys2Proof/Tests/Slice0.lean ====
section
/-! SUPPORT. Tests: ill-formed terms, decoding of words written out field by field, one step of each instruction with the
expected result from spec/95_test_vectors.md (its vector is named in each docstring), and a witness for every obligation
that has hypotheses. -/

namespace Sys2Proof.Tests

open Sys2Proof.Machine

/-- The reset state with the word `w` at 0x3000, as the vectors start. -/
def holding (w : Nat) : State := State.reset.withFetchWord 16 w

/-- What `f` reads of the next state, if there is one. -/
def after {α : Type} (f : State → α) (o : Host.Outcome State Fault Refusal) : Option α :=
  match o with
  | .next t => some (f t)
  | .fault _ => none
  | .refused _ => none

/-! ## Well-formedness -/

/-- The words of RET are not `jmp`'s (42_control.md R152). -/
theorem test_wf_refuses_jmp_through_r7 : (Instr.jmp 7).wf = false := by decide

/-- A vector with a routine is not the unknown-vector TRAP (43_trap_and_system.md R177). -/
theorem test_wf_refuses_a_routine_vector : (Instr.trapOther 0x20).wf = false ∧ (Instr.trapOther 0x25).wf = false := by
  decide

/-- The neighbours of the refused terms are well formed. -/
theorem test_wf_accepts : (Instr.jmp 6).wf = true ∧ (Instr.trapOther 0x26).wf = true := by decide

/-! ## Decoding: each word is written as its fields in the table of 30_encoding.md R62 -/

/-- BRnz, offset -2: 0000 | n z p | PCoffset9. -/
theorem test_decode_br : decode 0b0000_110_111111110 = .br 0b110 (-2) := by decide

/-- ADD R1, R2, R3: 0001 | DR | SR1 | 0 | 00 | SR2. -/
theorem test_decode_addReg : decode 0b0001_001_010_0_00_011 = .addReg 1 2 3 := by decide

/-- ADD R5, R6, #-16: 0001 | DR | SR1 | 1 | imm5. -/
theorem test_decode_addImm : decode 0b0001_101_110_1_10000 = .addImm 5 6 (-16) := by decide

/-- LD R4, #3: 0010 | DR | PCoffset9. -/
theorem test_decode_ld : decode 0b0010_100_000000011 = .ld 4 3 := by decide

/-- ST R3, #-256: 0011 | SR | PCoffset9. -/
theorem test_decode_st : decode 0b0011_011_100000000 = .st 3 (-256) := by decide

/-- JSR #-1024: 0100 | 1 | PCoffset11. -/
theorem test_decode_jsr : decode 0b0100_1_10000000000 = .jsr (-1024) := by decide

/-- JSRR R5: 0100 | 0 | 00 | BaseR | 000000. -/
theorem test_decode_jsrr : decode 0b0100_0_00_101_000000 = .jsrr 5 := by decide

/-- AND R7, R0, R6: 0101 | DR | SR1 | 0 | 00 | SR2. -/
theorem test_decode_andReg : decode 0b0101_111_000_0_00_110 = .andReg 7 0 6 := by decide

/-- AND R2, R1, #15: 0101 | DR | SR1 | 1 | imm5. -/
theorem test_decode_andImm : decode 0b0101_010_001_1_01111 = .andImm 2 1 15 := by decide

/-- LDR R6, R1, #-32: 0110 | DR | BaseR | offset6. -/
theorem test_decode_ldr : decode 0b0110_110_001_100000 = .ldr 6 1 (-32) := by decide

/-- STR R1, R6, #31: 0111 | SR | BaseR | offset6. -/
theorem test_decode_str : decode 0b0111_001_110_011111 = .str 1 6 31 := by decide

/-- RTI: 1000, whatever the other bits (30_encoding.md R65; V-EX-2). -/
theorem test_decode_rti : decode 0b1000_000000000000 = .rti ∧ decode 0x8FFF = .rti := by decide

/-- NOT R1, R2: 1001 | DR | SR | 111111, and with the unused bits zero (V-OP-13). -/
theorem test_decode_not : decode 0b1001_001_010_111111 = .not 1 2 ∧ decode 0x9280 = .not 1 2 := by decide

/-- LDI R2, #255: 1010 | DR | PCoffset9. -/
theorem test_decode_ldi : decode 0b1010_010_011111111 = .ldi 2 255 := by decide

/-- STI R5, #-1: 1011 | SR | PCoffset9. -/
theorem test_decode_sti : decode 0b1011_101_111111111 = .sti 5 (-1) := by decide

/-- JMP R2: 1100 | 000 | BaseR | 000000, and with the unused bits set (V-CT-9). -/
theorem test_decode_jmp : decode 0b1100_000_010_000000 = .jmp 2 ∧ decode 0xCEBF = .jmp 2 := by decide

/-- RET: JMP with BaseR = 111. -/
theorem test_decode_ret : decode 0b1100_000_111_000000 = .ret := by decide

/-- RES: 1101, whatever the other bits (V-EX-4). -/
theorem test_decode_res : decode 0b1101_000000000000 = .res ∧ decode 0xDABC = .res := by decide

/-- LEA R3, #1: 1110 | DR | PCoffset9. -/
theorem test_decode_lea : decode 0b1110_011_000000001 = .lea 3 1 := by decide

/-- TRAP x20: 1111 | 0000 | trapvect8. -/
theorem test_decode_trapGetc : decode 0b1111_0000_00100000 = .trapGetc := by decide

/-- TRAP x21. -/
theorem test_decode_trapOut : decode 0b1111_0000_00100001 = .trapOut := by decide

/-- TRAP x22. -/
theorem test_decode_trapPuts : decode 0b1111_0000_00100010 = .trapPuts := by decide

/-- TRAP x23. -/
theorem test_decode_trapIn : decode 0b1111_0000_00100011 = .trapIn := by decide

/-- TRAP x24. -/
theorem test_decode_trapPutsp : decode 0b1111_0000_00100100 = .trapPutsp := by decide

/-- TRAP x25, and with bits 11:8 set (V-TR-2). -/
theorem test_decode_trapHalt : decode 0b1111_0000_00100101 = .trapHalt ∧ decode 0xFF25 = .trapHalt := by decide

/-- TRAP with vectors beside the six (V-TR-15, V-TR-16, V-TR-17). -/
theorem test_decode_trapOther :
    decode 0xF026 = .trapOther 0x26 ∧ decode 0xF000 = .trapOther 0x00 ∧ decode 0xF0FF = .trapOther 0xFF := by decide

/-- The unused bits 4:3 of a register ADD (V-OP-4). -/
theorem test_decode_ignores_add_bits : decode 0x1298 = .addReg 1 2 0 := by decide

/-- The table's bits: one whole word, or less with zeros above; a number that is no such word is refused. -/
theorem test_decodeTableWord :
    decodeTableWord 16 0xF025 = some .trapHalt ∧ decodeTableWord 8 0x25 = some (.br 0 0x25) ∧
      decodeTableWord 16 0x10000 = none ∧ decodeTableWord 32 0xF025 = none := by decide

/-! ## Operand forms and flags -/

/-- W1: the sign extensions the source lists. -/
theorem test_sext :
    sext 0x10#5 = 0xFFF0 ∧ sext 0x0F#5 = 0x000F ∧ sext 0x1FF#9 = 0xFFFF ∧ sext 0x400#11 = 0xFC00 ∧
      sext 0x20#6 = 0xFFE0 ∧ sext 0x8000#16 = 0x8000 ∧ sext 1#1 = 0xFFFF ∧ sext 0#1 = 0 := by decide

/-- W2: the flag of each value the source lists (P, Z, N = 1, 2, 4). -/
theorem test_flagOf :
    flagOf 0x0000 = 2 ∧ flagOf 0x0001 = 1 ∧ flagOf 0x7FFF = 1 ∧ flagOf 0x8000 = 4 ∧ flagOf 0xFFFF = 4 := by decide

/-! ## One step of each instruction -/

/-- V-OP-1: signed overflow wraps. -/
theorem test_addReg_overflow :
    after (fun t => (t.reg 1, t.cond, t.pc)) (step (((holding 0x1283).setReg 2 0x7FFF).setReg 3 1)) =
      some (0x8000, 4, 0x3001) := by decide

/-- V-OP-5: source and destination are one register, and the carry is lost. -/
theorem test_addReg_same :
    after (fun t => (t.reg 0, t.cond)) (step ((holding 0x1000).setReg 0 0x8000)) = some (0, 2) := by decide

/-- V-OP-2: the most negative immediate. -/
theorem test_addImm_negative :
    after (fun t => (t.reg 1, t.cond)) (step ((holding 0x1270).setReg 1 0x0010)) = some (0, 2) := by decide

/-- W3: an image file with one ADD is loaded and run. -/
theorem test_addImm_loaded :
    ((launchFiles [[0x30, 0x00, 0x10, 0x25]] [] false).bind fun s => after (fun t => (t.reg 0, t.cond, t.pc)) (step s)) =
      some (5, 1, 0x3001) := by decide

/-- V-OP-9. -/
theorem test_andReg :
    after (fun t => (t.reg 3, t.cond)) (step (((holding 0x5705).setReg 4 0x0F0F).setReg 5 0x00FF)) =
      some (0x000F, 1) := by decide

/-- V-OP-8: the immediate is sign-extended. -/
theorem test_andImm_extends :
    after (fun t => (t.reg 3, t.cond)) (step ((holding 0x573F).setReg 4 0x8421)) = some (0x8421, 4) := by decide

/-- V-OP-10: and a positive one is not. -/
theorem test_andImm_positive :
    after (fun t => (t.reg 3, t.cond)) (step ((holding 0x572F).setReg 4 0xFFF0)) = some (0, 2) := by decide

/-- V-OP-14. -/
theorem test_not : after (fun t => (t.reg 3, t.cond)) (step ((holding 0x96FF).setReg 3 0x00FF)) = some (0xFF00, 4) := by
  decide

/-- V-DM-1: a loaded zero sets Z. -/
theorem test_ld_zero :
    after (fun t => (t.reg 1, t.cond)) (step (((holding 0x2202).setReg 1 7).setCond 1)) = some (0, 2) := by decide

/-- V-DM-2: the instruction at 0x3001 loads itself. -/
theorem test_ld_itself :
    after (fun t => (t.reg 1, t.cond, t.pc)) (step ((State.reset.setPc 0x3001).withFetchWord 16 0x23FF)) =
      some (0x23FF, 1, 0x3002) := by decide

/-- V-DM-3 (W4): one indirection. -/
theorem test_ldi :
    after (fun t => (t.reg 0, t.cond))
      (step (((holding 0xA000).memWrite 0x3001 0x4000).memWrite 0x4000 0x002A)) = some (0x002A, 1) := by decide

/-- V-DM-4a and V-DM-4b: the poll of LDI's second read, for either draw. -/
theorem test_poll :
    (fun t : State => (t.cell 0xFE00, t.cell 0xFE02, t.input, t.consumed))
        (State.pollWith true (State.reset.deliver 0x71)) = (0x8000, 0x0071, [], 1) ∧
      (fun t : State => (t.cell 0xFE00, t.cell 0xFE02, t.input, t.consumed))
        (State.pollWith false (State.reset.deliver 0x71)) = (0x0000, 0x0000, [0x71], 0) := by decide

/-- V-DM-5: a base + offset address that wraps. -/
theorem test_ldr_wraps :
    after (fun t => (t.reg 3, t.cond)) (step (((holding 0x66E0).setReg 3 0x0010).memWrite 0xFFF0 0x0042)) =
      some (0x0042, 1) := by decide

/-- V-DM-6: the greatest offset. -/
theorem test_ldr :
    after (fun t => (t.reg 4, t.cond)) (step (((holding 0x695F).setReg 5 0x4000).memWrite 0x401F 0x9000)) =
      some (0x9000, 4) := by decide

/-- V-DM-8: the address wraps to 0. -/
theorem test_lea_wraps :
    after (fun t => (t.reg 0, t.cond, t.pc)) (step ((State.reset.setPc 0xFF00).withFetchWord 16 0xE0FF)) =
      some (0, 2, 0xFF01) := by decide

/-- V-DM-9: LEA of KBSR_ADDR does not poll. -/
theorem test_lea_no_poll :
    after (fun t => (t.reg 0, t.cond, t.polls)) (step ((State.reset.setPc 0xFDFF).withFetchWord 16 0xE000)) =
      some (0xFE00, 4, 0) := by decide

/-- V-EX-9: a store to the instruction's own address. -/
theorem test_st_itself :
    after (fun t => (t.cell 0x3000, t.pc)) (step ((holding 0x33FF).setReg 1 0x1025)) = some (0x1025, 0x3001) := by decide

/-- V-DM-13: a store to KBSR_ADDR is plain. -/
theorem test_st_no_poll :
    after (fun t => (t.cell 0xFE00, t.polls))
      (step (((State.reset.setPc 0xFDFF).withFetchWord 16 0x3000).setReg 0 0x1234)) = some (0x1234, 0) := by decide

/-- V-DM-11. -/
theorem test_sti :
    after (fun t => (t.cell 0x4000, t.cell 0x3002, t.cond))
      (step (((holding 0xB201).setReg 1 0xBEEF).memWrite 0x3002 0x4000)) = some (0xBEEF, 0x4000, 0) := by decide

/-- V-DM-12: the address wraps below 0. -/
theorem test_str_wraps :
    after (fun t => (t.cell 0xFFFF, t.cond)) (step ((holding 0x75BF).setReg 2 0x1111)) = some (0x1111, 0) := by decide

/-- V-CT-2: no flag is set at reset, so even BRnzp falls through. -/
theorem test_br_at_reset : after State.pc (step (holding 0x0FFF)) = some 0x3001 := by decide

/-- V-CT-6: PC wraps at the fetch and back at the branch. -/
theorem test_br_wraps :
    after State.pc (step (((State.reset.setPc 0xFFFF).withFetchWord 16 0x03FF).setCond 1)) = some 0xFFFF := by decide

/-- V-CT-9: the unused bits of JMP. -/
theorem test_jmp : after State.pc (step ((holding 0xCEBF).setReg 2 0x1234)) = some 0x1234 := by decide

/-- V-CT-10. -/
theorem test_ret : after State.pc (step ((holding 0xC1C0).setReg 7 0x3456)) = some 0x3456 := by decide

/-- V-CT-11: the greatest offset. -/
theorem test_jsr : after (fun t => (t.reg 7, t.pc, t.cond)) (step (holding 0x4BFF)) = some (0x3001, 0x3400, 0) := by
  decide

/-- V-CT-12: the least offset. -/
theorem test_jsr_back : after (fun t => (t.reg 7, t.pc)) (step (holding 0x4C00)) = some (0x3001, 0x2C01) := by decide

/-- V-CT-15. -/
theorem test_jsrr :
    after (fun t => (t.reg 7, t.pc)) (step ((holding 0x40C0).setReg 3 0x5000)) = some (0x3001, 0x5000) := by decide

/-- V-CT-16: JSRR R7 falls through. -/
theorem test_jsrr_r7 :
    after (fun t => (t.reg 7, t.pc)) (step ((holding 0x41C0).setReg 7 0x1234)) = some (0x3001, 0x3001) := by decide

/-- V-TR-5: a character is zero-extended. -/
theorem test_getc :
    after (fun t => (t.reg 0, t.cond, t.input, t.output)) (step ((holding 0xF020).deliver 0xFF)) =
      some (0x00FF, 1, [], []) := by decide

/-- V-TR-7: at the end of the stream, EofWord. -/
theorem test_getc_end : after (fun t => t.reg 0) (step (holding 0xF020).endInput) = some Config.eofWord := rfl

/-- V-TR-8: the high byte of R0 is ignored. -/
theorem test_out :
    after (fun t => (t.output, t.flushed, t.reg 0, t.cond)) (step ((holding 0xF021).setReg 0 0x1241)) =
      some ([0x41], 1, 0x1241, 0) := by decide

/-- V-TR-9: the high bytes are ignored. -/
theorem test_puts :
    after State.output (step ((((holding 0xF022).setReg 0 0x4000).memWrite 0x4000 0x0048).memWrite 0x4001 0x0169)) =
      some [0x48, 0x69] := by decide

/-- V-TR-10: the string's address wraps. -/
theorem test_puts_wraps :
    after State.output (step (((holding 0xF022).setReg 0 0xFFFF).memWrite 0xFFFF 0x0041)) = some [0x41] := by decide

/-- V-TR-14: the prompt, the echo, R0 and the flags. -/
theorem test_in :
    after (fun t => (t.reg 0, t.cond, t.output)) (step ((holding 0xF023).deliver 0x7A)) =
      some (0x007A, 1, Config.inPrompt ++ [0x7A]) := rfl

/-- V-TR-12: two characters a word, the second only if nonzero. -/
theorem test_putsp :
    after State.output (step ((((holding 0xF024).setReg 0 0x4000).memWrite 0x4000 0x6548).memWrite 0x4001 0x006C)) =
      some [0x48, 0x65, 0x6C] := by decide

/-- V-TR-13: a zero low byte is written. -/
theorem test_putsp_zero_low :
    after State.output (step (((holding 0xF024).setReg 0 0x4000).memWrite 0x4000 0x4100)) = some [0x00, 0x41] := by decide

/-- V-TR-1 (W6): HALT. -/
theorem test_halt :
    after (fun t => (t.run, t.pc, t.output)) (step (holding 0xF025)) = some (.halted, 0x3001, Config.haltMessage) := rfl

/-- V-TR-15: an unknown vector. -/
theorem test_unknown_vector :
    after (fun t => (t.run, t.pc)) (step (holding 0xF026)) =
      some (.faulted (.unknownTrapVector 0x26 0xF026 0x3000), 0x3001) := by decide

/-- V-EX-1: RTI. -/
theorem test_rti :
    after (fun t => (t.run, t.pc)) (step (holding 0x8000)) =
      some (.faulted (.invalidOpcode .rti 0x8000 0x3000), 0x3001) := by decide

/-- V-EX-4: RES. -/
theorem test_res :
    after State.run (step (holding 0xDABC)) = some (.faulted (.invalidOpcode .res 0xDABC 0x3000)) := by decide

/-! ## The cycle and the loader -/

/-- V-EX-6: the fetch's increment wraps. -/
theorem test_fetch_wraps : after State.pc (step (State.reset.setPc 0xFFFF)) = some 0x0000 := by decide

/-- V-EX-7 and V-EX-8: what a fetch at 0xFE00 finds in the cell after a true and after a false draw. -/
theorem test_fetch_at_kbsr :
    decode ((State.pollWith true (State.reset.deliver 0x78)).cell 0xFE00) = .rti ∧
      decode ((State.pollWith false (State.reset.deliver 0x78)).cell 0xFE00) = .br 0 0 := by decide

/-- V-TR-6: GETC holds, changing nothing beyond the fetch; a byte then completes its cycle. -/
theorem test_hold :
    after (fun t => (t.reg 0, t.cond, t.pc, t.routine)) (step (holding 0xF020)) = some (0, 0, 0x3001, some .getc) ∧
      after (fun t => after (fun u => (u.reg 0, u.pc, u.routine)) (step (t.deliver 0x41))) (step (holding 0xF020)) =
        some (some (0x0041, 0x3001, none)) := by decide

/-- 80_interfaces.md R266, D33: a stop inside the cycle of PUTS "Hi" (V-TR-9's string) may show "H", or nothing. -/
theorem test_stop_inside_puts :
    let s := (((holding 0xF022).setReg 0 0x4000).memWrite 0x4000 0x0048).memWrite 0x4001 0x0169
    StoppedOutput s [0x48] 0 ∧ StoppedOutput s [] 0 :=
  ⟨⟨[0x48], .inside rfl (by decide) (by decide) (by decide) (by decide) nofun,
    by decide⟩, [], .between rfl, by decide⟩

/-- 80_interfaces.md R266, D18: a stop may show less than what was flushed. -/
theorem test_stop_any_prefix : StoppedOutput { State.reset with output := [0x41], flushed := 1 } [] 0 :=
  ⟨[0x41], .between rfl, by decide⟩

/-- V-EX-5: a halted machine has no step. -/
theorem test_no_step_after_halt : step ((holding 0x1025).setRun .halted) = .fault .halted := rfl

/-- 70_reset_and_hazards.md R233: an odd number of bytes, and an image that would pass 0xFFFF, are refused. -/
theorem test_loader_refuses :
    launchFiles [[0x30, 0x00, 0x10]] [] false = none ∧ launchFiles [[0xFF, 0xFF, 0, 1, 0, 2]] [] false = none ∧
      (launchFiles [[0xFF, 0xFF, 0, 1]] [] false).map (fun s => s.cell 0xFFFF) = some 1 := by decide

/-- A memory that is not in canonical form: out of order, a listed zero, and a cell beyond the last. -/
theorem test_memory_wf_refuses :
    Memory.wf [(2, 1), (1, 1)] = false ∧ Memory.wf [(2, 0)] = false ∧ Memory.wf [(65536, 1)] = false := by decide

/-! ## Success (80_interfaces.md R268) -/

/-- W6's program at its start, with any input. -/
def haltStart (input : List Byte) (ended : Bool) : State :=
  { holding 0xF025 with input := input, inputEnded := ended }

/-- The same after its one cycle. -/
def haltEnd (input : List Byte) (ended : Bool) : State :=
  { haltStart input ended with
    pc := 0x3001, ir := 0xF025, run := .halted, output := Config.haltMessage, flushed := Config.haltMessage.length }

theorem haltStart_step (input : List Byte) (ended : Bool) :
    step (haltStart input ended) = .next (haltEnd input ended) := by
  have h : decode (haltStart input ended).fetch.ir = .trapHalt := by
    have : (haltStart input ended).fetch.ir = 0xF025 := rfl
    rw [this]; decide
  change exec (decode (haltStart input ended).fetch.ir) (haltStart input ended).fetch = _
  rw [h]; rfl

theorem haltEnd_step (input : List Byte) (ended : Bool) : step (haltEnd input ended) = .fault .halted := rfl

/-- Every event keeps the machine at its start or brings it to its end. -/
theorem haltStart_moves {input : List Byte} {ended : Bool} {v : State} (m : Moves (haltStart input ended) v) :
    (∃ i e, v = haltStart i e) ∨ v = haltEnd input ended := by
  cases m with
  | stepped h => rw [haltStart_step] at h; cases h; exact .inr rfl
  | delivered b => cases ended <;> exact .inl ⟨_, _, rfl⟩
  | inputEnded => exact .inl ⟨_, _, rfl⟩

/-- No event leaves the end. -/
theorem haltEnd_moves {input : List Byte} {ended : Bool} {v : State} (m : Moves (haltEnd input ended) v) :
    ∃ i e, v = haltEnd i e := by
  cases m with
  | stepped h => rw [haltEnd_step] at h; cases h
  | delivered b => cases ended <;> exact ⟨_, _, rfl⟩
  | inputEnded => exact ⟨_, _, rfl⟩

/-- W6: the program that is only a HALT succeeds under every host, from an open stream too. -/
theorem test_halt_succeeds :
    HaltsWith (holding 0xF025) fun out f => out = Config.haltMessage ∧ f.pc = 0x3001 := by
  refine haltsWith_of_measure (P := fun u => ∃ i e, u = haltStart i e ∨ u = haltEnd i e)
    (size := fun u => if u.run = .running then 1 else 0) ⟨[], false, .inl rfl⟩ ?event ?lower ?keep ?noHold ?noFault ?done
  case event =>
    rintro u v ⟨i, e, rfl | rfl⟩ m
    · rcases haltStart_moves m with ⟨i, e, rfl⟩ | rfl
      · exact ⟨i, e, .inl rfl⟩
      · exact ⟨i, e, .inr rfl⟩
    · obtain ⟨i, e, rfl⟩ := haltEnd_moves m
      exact ⟨i, e, .inr rfl⟩
  case lower =>
    rintro u v ⟨i, e, rfl | rfl⟩ h
    · rw [haltStart_step] at h; cases h; exact Nat.zero_lt_one
    · rw [haltEnd_step] at h; cases h
  case keep =>
    rintro u v ⟨i, e, rfl | rfl⟩ m
    · rcases haltStart_moves m with ⟨i, e, rfl⟩ | rfl
      · exact le_rfl
      · exact Nat.zero_le _
    · obtain ⟨i, e, rfl⟩ := haltEnd_moves m
      exact le_rfl
  case noHold =>
    rintro u ⟨i, e, rfl | rfl⟩
    · rw [haltStart_step]; nofun
    · rw [haltEnd_step]; nofun
  case noFault => rintro u a ⟨i, e, rfl | rfl⟩ <;> nofun
  case done =>
    rintro u ⟨i, e, rfl | rfl⟩ h
    · cases h
    · exact ⟨rfl, rfl⟩

/-- A GETC on an open stream does not succeed: the host may never deliver, and the hold refutes the claim. -/
theorem test_hold_refutes (post : List Byte → Final → Prop) : ¬ HaltsWith (holding 0xF020) post := fun hw =>
  hw.ends (fun n => match n with | 0 => holding 0xF020 | _ + 1 => (holding 0xF020).fetch.setRoutine (some .getc))
    { start := rfl
      running := fun n => match n with | 0 => rfl | _ + 1 => rfl
      event := fun n => match n with | 0 => .inl (.stepped rfl) | _ + 1 => .inr ⟨rfl, rfl⟩
      active := fun n => match n with | 0 => ⟨0, le_rfl, .inl rfl⟩ | n + 1 => ⟨n + 1, le_rfl, .inr rfl⟩ }

/-- A delivered byte that leads to an abort refutes it too: GETC, then RTI. -/
theorem test_delivery_then_fault_refutes (post : List Byte → Final → Prop) :
    ¬ HaltsWith ((holding 0xF020).memWrite 0x3001 0x8000) post := fun hw =>
  hw.noFault _ _ ((((Relation.ReflTransGen.refl.tail (.stepped rfl)).tail (.delivered 0x41)).tail
    (.stepped rfl)).tail (.stepped rfl)) rfl

/-! ## Witnesses: for every obligation with hypotheses, a concrete case that meets them -/

/-- SignExtendIsTwosComplement: the two ends of the range of widths. -/
theorem witness_SignExtend : (1 ≤ 1 ∧ 1 ≤ 16) ∧ (1 ≤ 16 ∧ 16 ≤ 16) := by decide

/-- StoreWritesOneCell, ST, STI, STR, StatusReadPollsTheKeyboard: a canonical memory with cells at both ends. -/
theorem witness_canonical_memory :
    Memory.wf ((State.reset.memWrite 0x0000 1).memWrite 0xFFFF 2).mem = true := by decide

/-- OrdinaryReadHasNoEffect: the neighbours of KBSR_ADDR, and KBDR_ADDR. -/
theorem witness_OrdinaryRead : (0xFDFF : Word) ≠ kbsrAddr ∧ (0xFE01 : Word) ≠ kbsrAddr ∧ kbdrAddr ≠ kbsrAddr := by decide

/-- StatusReadPollsTheKeyboard: a cell that is neither keyboard cell, between them. -/
theorem witness_StatusRead : (0xFE01 : Word) ≠ kbsrAddr ∧ (0xFE01 : Word) ≠ kbdrAddr := by decide

/-- StoreIsSeenByTheNextFetch: KBDR_ADDR, in the reset state. -/
theorem witness_StoreIsSeen : Memory.wf State.reset.mem = true ∧ kbdrAddr ≠ kbsrAddr := by decide

/-- The decode clauses of ADD and AND: one word for each mode. -/
theorem witness_decode_operate :
    (opcodeOf 0x1283 = .add ∧ (0x1283 : Word).getLsbD 5 = false) ∧
      (opcodeOf 0x1270 = .add ∧ (0x1270 : Word).getLsbD 5 = true) ∧
      (opcodeOf 0x5705 = .and ∧ (0x5705 : Word).getLsbD 5 = false) ∧
      (opcodeOf 0x573F = .and ∧ (0x573F : Word).getLsbD 5 = true) ∧ opcodeOf 0x92BF = .not := by decide

/-- The decode clauses of the data movement family. -/
theorem witness_decode_data_movement :
    opcodeOf 0x2202 = .ld ∧ opcodeOf 0xA000 = .ldi ∧ opcodeOf 0x66E0 = .ldr ∧ opcodeOf 0xE100 = .lea ∧
      opcodeOf 0x3201 = .st ∧ opcodeOf 0xB201 = .sti ∧ opcodeOf 0x75BF = .str := by decide

/-- The decode clauses of the control family: JMP through R2 and through R7, JSR and JSRR. -/
theorem witness_decode_control :
    opcodeOf 0x0405 = .br ∧ (opcodeOf 0xC080 = .jmp ∧ field 0xC080 6 3 ≠ 7#3) ∧
      (opcodeOf 0xC1C0 = .jmp ∧ field 0xC1C0 6 3 = 7#3) ∧
      (opcodeOf 0x4BFF = .jsr ∧ (0x4BFF : Word).getLsbD 11 = true) ∧
      (opcodeOf 0x41C0 = .jsr ∧ (0x41C0 : Word).getLsbD 11 = false) := by decide

/-- The decode clauses of the trap family: the six vectors, those beside them, and the two invalid opcodes. -/
theorem witness_decode_trap :
    opcodeOf 0xF020 = .trap ∧ field 0xF020 0 8 = TrapVector.getc ∧ field 0xF021 0 8 = TrapVector.out ∧
      field 0xF022 0 8 = TrapVector.puts ∧ field 0xF023 0 8 = TrapVector.inp ∧ field 0xF024 0 8 = TrapVector.putsp ∧
      field 0xF025 0 8 = TrapVector.halt ∧ field 0xF01F 0 8 ∉ TrapVector.all ∧ field 0xF026 0 8 ∉ TrapVector.all ∧
      field 0xF000 0 8 ∉ TrapVector.all ∧ field 0xF0FF 0 8 ∉ TrapVector.all ∧ opcodeOf 0x8000 = .rti ∧
      opcodeOf 0xD000 = .res := by decide

/-- BrBranchesOnSharedFlag: a shared flag (Z); and none shared (P against n z). -/
theorem witness_BrBranches :
    ((0b010#3).getLsbD 1 = true ∧ (State.reset.setCond 2).cond.getLsbD 1 = true) ∧
      ∀ k : Nat, (0b110#3).getLsbD k = true → (State.reset.setCond 1).cond.getLsbD k = false := by
  refine ⟨by decide, fun k => ?_⟩
  match k with
  | 0 | 1 | 2 => decide
  | k + 3 => exact fun h => absurd h (by simp [BitVec.getLsbD_of_ge])

/-- JSRR and JSR: a register other than R7 is there to be left alone. -/
theorem witness_JsrLinks : (6#3 : Reg) ≠ 7#3 ∧ (0#3 : Reg) ≠ 7#3 := by decide

/-- GETC and IN: one byte left, with nothing after it; and an ended stream. -/
theorem witness_GetcReads :
    (State.reset.deliver 0x41).input = 0x41 :: [] ∧ State.reset.endInput.input = [] ∧
      State.reset.endInput.inputEnded = true := by decide

/-- PUTS and PUTSP: an empty string, and one of one word whose end lies past the wrap. -/
theorem witness_IsString :
    Spec.IsString (State.reset.setReg 0 0x4000) 0 ∧
      Spec.IsString ((State.reset.setReg 0 0xFFFF).memWrite 0xFFFF 0x0041) 1 := by
  refine ⟨⟨by decide, fun k h => absurd h (Nat.not_lt_zero k), by decide⟩, by decide, fun k h => ?_, by decide⟩
  obtain rfl : k = 0 := by omega
  decide

/-- Every cell from `lo` on for `n` cells holds 1. -/
theorem read_ones (n lo a : Nat) (hlo : lo ≤ a) (ha : a < lo + n) :
    Memory.read ((List.range' lo n).map fun k => (k, (1 : Word))) a = 1 := by
  induction n generalizing lo with
  | zero => omega
  | succ n ih =>
    simp only [List.range'_succ, List.map_cons, Memory.read]
    split
    · rfl
    · exact ih (lo + 1) (by omega) (by omega)

/-- EndlessStringNeverEnds: a running machine inside PUTS, every cell of whose memory is nonzero. -/
theorem witness_EndlessString :
    ∃ s : State, (∀ a, s.cell a ≠ 0) ∧ s.run = .running ∧ s.routine = some .puts := by
  refine ⟨{ State.reset with mem := (List.range' 0 65536).map fun k => (k, (1 : Word)), routine := some .puts },
    fun a => ?_, rfl, rfl⟩
  have h : a.toNat < 0 + 65536 := by have := a.isLt; omega
  rw [State.cell, read_ones 65536 0 a.toNat (Nat.zero_le _) h]
  decide

/-- The same for PUTSP. -/
theorem witness_EndlessString_putsp :
    ∃ s : State, (∀ a, s.cell a ≠ 0) ∧ s.run = .running ∧ s.routine = some .putsp := by
  obtain ⟨s, h, hr, -⟩ := witness_EndlessString
  exact ⟨s.setRoutine (some .putsp), h, hr, rfl⟩

/-- HoldWaitsForInput: the reset state. -/
theorem witness_HoldWaits :
    State.reset.run = .running ∧ State.reset.input = [] ∧ State.reset.inputEnded = false := by decide

/-- StepRunsTheDecodedInstruction: a fetch elsewhere, a fetch at KBSR_ADDR, and a routine to go on with. -/
theorem witness_StepRuns :
    (State.reset.run = .running ∧ State.reset.routine = none ∧ State.reset.pc ≠ kbsrAddr) ∧
      ((State.reset.setPc kbsrAddr).run = .running ∧ (State.reset.setPc kbsrAddr).routine = none ∧
        (State.reset.setPc kbsrAddr).pc = kbsrAddr) ∧
      ((State.reset.setRoutine (some .inp)).run = .running ∧
        (State.reset.setRoutine (some .inp)).routine = some .inp) := by decide

/-- TerminalStatesHaveNoStep: a halted and a faulted state. -/
theorem witness_TerminalStates :
    (State.reset.setRun .halted).run = .halted ∧
      (State.reset.setRun (.faulted (.invalidOpcode .res 0xD000 0x3000))).run =
        .faulted (.invalidOpcode .res 0xD000 0x3000) := by decide

/-- StepStopsOnlyWhereTheSpecDoes, both ways: a state that steps, and one in GETC whose stream has ended. -/
theorem witness_StepStops :
    (∃ t, step (holding 0x1025) = .next t) ∧ (State.reset.setRoutine (some .getc)).endInput.inputReady :=
  ⟨⟨_, rfl⟩, .inr rfl⟩

/-- FaultsArePrecise: RTI, RES and an unknown vector, each at a fetch. -/
theorem witness_FaultsArePrecise :
    (∃ t a, (holding 0x8000).atFetch ∧ step (holding 0x8000) = .next t ∧ t.run = .faulted a) ∧
      (∃ t a, (holding 0xD000).atFetch ∧ step (holding 0xD000) = .next t ∧ t.run = .faulted a) ∧
      ∃ t a, (holding 0xF0FF).atFetch ∧ step (holding 0xF0FF) = .next t ∧ t.run = .faulted a :=
  ⟨⟨_, _, ⟨rfl, rfl⟩, rfl, rfl⟩, ⟨_, _, ⟨rfl, rfl⟩, rfl, rfl⟩, ⟨_, _, ⟨rfl, rfl⟩, rfl, rfl⟩⟩

/-- OnlyHaltHaltsAndOnlyAbortsFault: HALT, an abort and an ADD answer a next state. -/
theorem witness_OnlyHaltHalts :
    (∃ t, exec .trapHalt State.reset = .next t) ∧ (∃ t, exec .res State.reset = .next t) ∧
      ∃ t, exec (.addImm 0 0 5) State.reset = .next t := ⟨⟨_, rfl⟩, ⟨_, rfl⟩, ⟨_, rfl⟩⟩

/-- OnlyFlagWritersSetFlags: JSR sets none; GETC sets them from R0 and its cycle ends. -/
theorem witness_OnlyFlagWriters :
    (∃ t, exec (.jsr 5) State.reset = .next t ∧ Spec.flagReg (.jsr 5) = none) ∧
      ∃ t, exec .trapGetc (State.reset.deliver 0x41) = .next t ∧ Spec.flagReg .trapGetc = some 0 ∧
        (State.reset.deliver 0x41).routine = none ∧ t.routine = none := ⟨⟨_, rfl, rfl⟩, ⟨_, rfl, rfl, rfl, rfl⟩⟩

/-- OnlyControlTransfersWritePc: HALT. -/
theorem witness_OnlyControlTransfers :
    ∃ t, exec .trapHalt State.reset = .next t ∧ Spec.transfersControl .trapHalt = false := ⟨_, rfl, rfl⟩

/-- OnlyDestinationRegisterChanges: R7 beside an ADD, and R0 beside JSRR. -/
theorem witness_OnlyDestination :
    (∃ t, exec (.addImm 0 0 5) State.reset = .next t ∧ Spec.destReg (.addImm 0 0 5) ≠ some 7) ∧
      ∃ t, exec (.jsrr 7) State.reset = .next t ∧ Spec.destReg (.jsrr 7) ≠ some 0 :=
  ⟨⟨_, rfl, by decide⟩, ⟨_, rfl, by decide⟩⟩

/-- OnlyStoresAndPollsWriteMemory: a cell that is no keyboard cell beside a store, and KBSR when it is not read. -/
theorem witness_OnlyStores :
    (∃ t, Memory.wf State.reset.mem = true ∧ exec (.st 0 5) State.reset = .next t ∧
        Spec.storesTo (.st 0 5) State.reset ≠ some 0x3006 ∧ ((0x3006 : Word) ≠ kbsrAddr ∧ (0x3006 : Word) ≠ kbdrAddr)) ∧
      ∃ t, exec (.ld 0 5) State.reset = .next t ∧ Spec.storesTo (.ld 0 5) State.reset ≠ some kbsrAddr ∧
        kbsrAddr ∉ Spec.reads (.ld 0 5) State.reset :=
  ⟨⟨_, rfl, rfl, by decide, by decide⟩, ⟨_, rfl, by decide, by decide⟩⟩

/-- OnlyPollsAndInputTrapsSeeInput: a load of KBDR_ADDR, through LDR. -/
theorem witness_OnlyPollsAndInput :
    ∃ t, exec (.ldr 0 1 2) (State.reset.setReg 1 kbsrAddr) = .next t ∧ Instr.ldr 0 1 2 ≠ .trapGetc ∧
      Instr.ldr 0 1 2 ≠ .trapIn ∧ kbsrAddr ∉ Spec.reads (.ldr 0 1 2) (State.reset.setReg 1 kbsrAddr) :=
  ⟨_, rfl, by decide, by decide, by decide⟩

/-- IrCannotBeObserved: a state at a fetch that steps, and an instruction that is no abort. -/
theorem witness_IrCannotBeObserved :
    (∃ t, (holding 0x1025).atFetch ∧ step (holding 0x1025) = .next t) ∧
      ∃ t, Instr.trapHalt ≠ .rti ∧ Instr.trapHalt ≠ .res ∧ (∀ v, Instr.trapHalt ≠ .trapOther v) ∧
        exec .trapHalt State.reset = .next t :=
  ⟨⟨_, ⟨rfl, rfl⟩, rfl⟩, ⟨_, nofun, nofun, nofun, rfl⟩⟩

/-- OnlyOutputTrapsWriteOutput: GETC writes none; a step of OUT appends. -/
theorem witness_OnlyOutput :
    (∃ t, exec .trapGetc State.reset = .next t ∧ Spec.writesOutput .trapGetc = false) ∧
      ∃ t, step (holding 0xF021) = .next t := ⟨⟨_, rfl, rfl⟩, ⟨_, rfl⟩⟩

/-- A state of a run that meets the invariant and steps: one character is out and flushed, and OUT comes next. -/
def echoing : State := { (holding 0xF021).setCond 1 with output := [0x41], flushed := 1 }

/-- StepKeepsTheInvariant: the state and its step. -/
theorem witness_StepKeeps : echoing.Inv ∧ ∃ t, step echoing = .next t :=
  ⟨⟨by decide, .inr (.inl rfl), by decide, fun _ => rfl, fun h => absurd rfl h⟩, _, rfl⟩

/-- FlushedOutputStaysObservable: the same step, and what may be observed after it. -/
theorem witness_FlushedOutput :
    ∃ t, echoing.Inv ∧ step echoing = .next t ∧ StoppedOutput t [0x41, 0x00] 0 ∧
      OnlyUnflushedLost t [0x41, 0x00] :=
  ⟨_, witness_StepKeeps.1, rfl, ⟨_, .between rfl, ⟨[], rfl⟩⟩, by unfold OnlyUnflushedLost; decide⟩

/-- StopShowsAnyPrefix: a machine that has ended, one that steps, and one that holds. -/
theorem witness_StopShows :
    (State.reset.setRun .halted).run ≠ .running ∧ (∃ t, step echoing = .next t) ∧
      step (State.reset.setRoutine (some .inp)) = .fault .hold := ⟨by decide, ⟨_, rfl⟩, rfl⟩

/-- EveryTrapFlushes: OUT ends its cycle. -/
theorem witness_EveryTrapFlushes :
    ∃ t, Spec.isTrapRoutine .trapOut = true ∧ exec .trapOut State.reset = .next t ∧ t.routine = none :=
  ⟨_, rfl, rfl, rfl⟩

/-- DecodeEncodeRoundTrip: well-formed terms at the edges of the two checks. -/
theorem witness_RoundTrip :
    (Instr.jmp 6).wf = true ∧ (Instr.trapOther 0x1F).wf = true ∧ (Instr.trapOther 0xFF).wf = true ∧
      (Instr.addImm 7 7 (-16)).wf = true := by decide

/-- LoadedImagesLaterWin: two images that overlap are accepted, one of them up to the last cell. -/
theorem witness_LoadedImages :
    ∃ s, launch [⟨0xFFFE, [1, 2]⟩, ⟨0xFFFF, [3]⟩] [0x41] true = some s := ⟨_, rfl⟩

/-- LaunchRefusesWhatDoesNotFit: an odd file, and an image that passes the last cell by one. -/
theorem witness_LaunchRefuses :
    ([0x30, 0x00, 0x10] : List Byte).length % 2 = 1 ∧
      ∃ i ∈ ([⟨0xFFFF, [1, 2]⟩] : List Image), 0x10000 < i.origin.toNat + i.words.length :=
  ⟨by decide, _, List.mem_singleton.mpr rfl, by decide⟩

/-- ReachableStatesMeetTheInvariant: a launched machine, its first step and a delivered byte. -/
theorem witness_Reachable : ∃ s t, Reachable s ∧ step s = .next t ∧ Reachable (t.deliver 0x41) :=
  have h : Reachable State.reset := reachable_of_launch (images := []) (input := []) (ended := false) rfl
  ⟨_, _, h, rfl, reachable_of_moves (reachable_of_moves h (.stepped rfl)) (.delivered 0x41)⟩

/-- UnreadBitsAreIgnored: RTI has words that differ in the bits it does not read. -/
theorem witness_UnreadBits : unreadBits (decode 0x8000) = 0x0FFF ∧ unreadBits (decode 0x1283) = 0x0018 := by decide

end Sys2Proof.Tests
end

/-! Sign extension (00_scope.md R9): what `sext` answers for each value of the sign bit, and the value it keeps. -/
section
namespace Sys2Proof.Machine

theorem sext_toInt {n : Nat} (hn : n ≤ 16) (v : BitVec n) : (sext v).toInt = v.toInt :=
  BitVec.toInt_signExtend_of_le hn

theorem sext_of_msb_false {n : Nat} {v : BitVec n} (hv : v.msb = false) : sext v = v.setWidth 16 :=
  BitVec.signExtend_eq_setWidth_of_msb_false hv

/-- R9's formula for a set sign bit: below bit `n` the shifted mask is 0, from bit `n` on it is all ones. -/
theorem sext_of_msb_true {n : Nat} {v : BitVec n} (hv : v.msb = true) :
    sext v = v.setWidth 16 ||| (0xFFFF#16 <<< n) := by
  have mask : 0xFFFF#16 = BitVec.allOnes 16 := rfl
  ext i hi
  by_cases hin : i < n
  · simp [sext, BitVec.getElem_signExtend, hin]
  · simp [sext, BitVec.getElem_signExtend, hin, hv, mask, -BitVec.reduceAllOnes]

/-- Settles O1: the formula by cases on the sign bit, the value by `sext_toInt`. -/
theorem signExtendIsTwosComplement : Obligations.SignExtendIsTwosComplement := by
  intro n v _ hn
  refine ⟨?_, sext_toInt hn v⟩
  rw [← BitVec.msb_eq_getLsbD_last]
  split
  case isTrue hv => exact sext_of_msb_true hv
  case isFalse hv => exact sext_of_msb_false (Bool.eq_false_iff.mpr hv)

end Sys2Proof.Machine
end

/-! IR is no operand (10_state.md R24): `withIr` puts any word in IR, every operation an instruction uses commutes with
it, and a fetch forgets it. -/
section
namespace Sys2Proof.Machine

/-- The state with another word in IR. -/
def State.withIr (s : State) (w : Word) : State := { s with ir := w }

@[simp] theorem withIr_ir (s : State) (w : Word) : (s.withIr w).ir = w := rfl

@[simp] theorem withIr_self (s : State) : s.withIr s.ir = s := rfl

/-- `InRead()` waits or answers alike, whatever word is in IR. -/
theorem inRead_withIr (s : State) (w : Word) :
    (s.withIr w).inRead = s.inRead.map fun (c, s') => (c, s'.withIr w) := by
  cases hin : s.input with
  | cons b rest => rw [inRead_of_cons hin, inRead_of_cons (s := s.withIr w) hin]; rfl
  | nil =>
    cases he : s.inputEnded with
    | true => rw [inRead_of_ended hin he, inRead_of_ended (s := s.withIr w) hin he]; rfl
    | false => rw [inRead_eq_none.mpr ⟨hin, he⟩]; exact inRead_eq_none.mpr ⟨hin, he⟩

theorem pollWith_withIr (draw : Bool) (s : State) (w : Word) :
    (s.withIr w).pollWith draw = (s.pollWith draw).withIr w := by
  unfold State.pollWith
  rw [inRead_withIr]
  cases draw <;> cases s.inRead <;> rfl

theorem poll_withIr (s : State) (w : Word) : (s.withIr w).poll = s.poll.withIr w :=
  pollWith_withIr _ s.countPoll w

/-- The word read is the same, and so is the state after it but for the IR. -/
theorem memRead_withIr (s : State) (w a : Word) :
    (s.withIr w).memRead a = ((s.memRead a).1, (s.memRead a).2.withIr w) := by
  unfold State.memRead
  rw [poll_withIr]
  split <;> rfl

theorem load_withIr (s : State) (w : Word) (dr : Reg) (ea : Word) :
    (s.withIr w).load dr ea = (s.load dr ea).withIr w := by
  unfold State.load
  rw [memRead_withIr]
  rfl

theorem getcBody_withIr (s : State) (w : Word) : (s.withIr w).getcBody = s.getcBody.withIr w := by
  unfold State.getcBody
  rw [inRead_withIr]
  cases s.inRead <;> rfl

theorem inBody_withIr (s : State) (w : Word) : (s.withIr w).inBody = s.inBody.withIr w := by
  unfold State.inBody
  rw [inRead_withIr]
  cases s.inRead <;> rfl

theorem stringBody_withIr (r : Routine) (bytes : List Word → List Byte) (s : State) (w : Word) :
    (s.withIr w).stringBody r bytes = (s.stringBody r bytes).withIr w := by
  have hreg : (s.withIr w).reg 0#3 = s.reg 0#3 := rfl
  have hwords : ∀ a n, stringWords (s.withIr w) a n = stringWords s a n := stringWords_congr rfl
  unfold State.stringBody
  rw [hreg, hwords]
  split <;> rfl

/-- An instruction that records no IR in a fault gives from two states that differ only in IR results that differ
only in IR. -/
theorem exec_withIr {i : Instr} {s t : State} (w : Word) (hrti : i ≠ .rti) (hres : i ≠ .res)
    (hother : ∀ v, i ≠ .trapOther v) (h : exec i s = .next t) : exec i (s.withIr w) = .next (t.withIr w) := by
  cases i with
  | rti => exact absurd rfl hrti
  | res => exact absurd rfl hres
  | trapOther v => exact absurd rfl (hother v)
  | br cond off =>
    cases h
    exact congrArg Host.Outcome.next
      (apply_ite (State.withIr · w) (s.condHolds cond) (s.setPc (s.pcOffset9 off)) s).symm
  | ld dr off => cases h; exact congrArg Host.Outcome.next (load_withIr s w dr _)
  | ldr dr base off => cases h; exact congrArg Host.Outcome.next (load_withIr s w dr _)
  | ldi dr off =>
    cases h
    simp only [exec, execLdi, memRead_withIr, load_withIr]
    rfl
  | sti sr off =>
    cases h
    simp only [exec, execSti, memRead_withIr]
    rfl
  | trapGetc => cases h; exact congrArg Host.Outcome.next (getcBody_withIr s w)
  | trapIn => cases h; exact congrArg Host.Outcome.next (inBody_withIr (s.out Config.inPrompt) w)
  | trapPuts => cases h; exact congrArg Host.Outcome.next (stringBody_withIr .puts putsBytes s w)
  | trapPutsp => cases h; exact congrArg Host.Outcome.next (stringBody_withIr .putsp putspBytes s w)
  | _ => cases h; rfl

/-- Every instruction leaves the IR as it is: an abort only moves the controller, and for any other instruction
`exec_withIr` with the word that IR already holds says so. -/
theorem exec_ir {i : Instr} {s t : State} (h : exec i s = .next t) : t.ir = s.ir := by
  cases i with
  | rti | res | trapOther => cases h; rfl
  | _ =>
    have hsame := exec_withIr s.ir (by nofun) (by nofun) (by nofun) h
    rw [withIr_self, h, Host.Outcome.next.injEq] at hsame
    rw [hsame, withIr_ir]

/-- A fetch forgets the IR before it. -/
theorem fetch_withIr (s : State) (w : Word) : (s.withIr w).fetch = s.fetch := by
  unfold State.fetch
  rw [memRead_withIr]
  rfl

/-- At a fetch, the step is the instruction fetched. -/
theorem step_atFetch {s : State} (h : s.atFetch) : step s = exec (decode s.fetch.ir) s.fetch := by
  obtain ⟨hrun, hroutine⟩ := h
  simp only [step, hrun, hroutine]

/-- Settles O47: `fetch_withIr` for the IR before a fetch, `exec_ir` for the word fetched, `exec_withIr` for the results. -/
theorem irCannotBeObserved : Obligations.IrCannotBeObserved := by
  refine ⟨fun s w hs => ?_, fun s t hs h => ?_, fun i s t w => exec_withIr w⟩
  · have hsw : (s.withIr w).atFetch := hs
    change step (s.withIr w) = step s
    rw [step_atFetch hsw, step_atFetch hs, fetch_withIr]
  · rw [step_atFetch hs] at h
    rw [exec_ir h, fetch_ir]

end Sys2Proof.Machine
end

/-! Addresses and single accesses of memory (20_memory.md R42-R45): a word plus a sign-extended field is their exact sum
narrowed, `MemRead` is `Spec.afterRead` and the cell in it, and `MemWrite` meets `Spec.Stores`. -/
section
namespace Sys2Proof.Machine

theorem add_sext_eq_ofInt {n : Nat} (hn : n ≤ 16) (x : Word) (v : BitVec n) :
    x + sext v = BitVec.ofInt 16 (x.toNat + v.toInt) := by
  rw [← sext_toInt hn v, BitVec.ofInt_add, BitVec.ofInt_natCast, BitVec.ofInt_toInt, BitVec.ofNat_toNat,
    BitVec.setWidth_eq]

theorem add_one_eq_ofNat (x : Word) : x + 1 = BitVec.ofNat 16 (x.toNat + 1) := by
  rw [BitVec.ofNat_add, BitVec.ofNat_toNat, BitVec.setWidth_eq]
  rfl

theorem memRead_eq_cell_afterRead (s : State) (a : Word) :
    s.memRead a = ((Spec.afterRead s a).cell a, Spec.afterRead s a) := by
  unfold State.memRead Spec.afterRead
  split <;> rfl

theorem afterRead_of_ne (s : State) {a : Word} (ha : a ≠ kbsrAddr) : Spec.afterRead s a = s :=
  if_neg ha

theorem memWrite_stores (s : State) (a v : Word) : Spec.Stores s (s.memWrite a v) a v := by
  refine ⟨fun hwf b => ?_, rfl⟩
  rw [memWrite_cell s a b v hwf]
  exact if_congr eq_comm rfl rfl

/-- Settles O2: `add_sext_eq_ofInt` at the three field widths, the pointer of STI by `memRead_eq_cell_afterRead`. -/
theorem effectiveAddressesWrap : Obligations.EffectiveAddressesWrap := by
  intro s
  refine ⟨fun off => ?_, fun off => ?_, fun base off => ?_, fun sr off => ?_, ?_⟩
  · exact add_sext_eq_ofInt (by decide) s.pc off
  · exact add_sext_eq_ofInt (by decide) s.pc off
  · exact add_sext_eq_ofInt (by decide) (s.reg base) off
  · exact congrArg (fun r => some r.1) (memRead_eq_cell_afterRead s (s.pcOffset9 off))
  · rw [fetch_pc, add_one_eq_ofNat]

/-- Settles O5, by `memWrite_stores`: a read after the store gives the cells, and no other field moves. -/
theorem storeWritesOneCell : Obligations.StoreWritesOneCell :=
  memWrite_stores

/-- Settles O6: away from KBSR_ADDR the state after a read is the state before it. -/
theorem ordinaryReadHasNoEffect : Obligations.OrdinaryReadHasNoEffect := by
  intro s a ha
  rw [memRead_eq_cell_afterRead, afterRead_of_ne s ha]

end Sys2Proof.Machine
end

/-! Terminal states (35_execution_cycle.md R80): the fault by which `step` names HALTED, and FAULTED with its abort. -/
section
namespace Sys2Proof.Machine

theorem step_of_halted {s : State} (h : s.run = .halted) : step s = .fault .halted := by
  simp only [step, h]

theorem step_of_faulted {s : State} {a : Abort} (h : s.run = .faulted a) : step s = .fault (.faulted a) := by
  simp only [step, h]

/-- Settles O37: the two terminal states by their step equations; a step to a next state is `running_of_step`'s. -/
theorem terminalStatesHaveNoStep : Obligations.TerminalStatesHaveNoStep := by
  intro s
  refine ⟨step_of_halted, fun _ => step_of_faulted, fun hrun t hstep => ?_⟩
  exact hrun (running_of_step hstep)

end Sys2Proof.Machine
end

/-! The ALU (40_operate.md R100-R105): `writeDest` meets `Spec.WritesDest`, each operation is its exact value narrowed to
16 bits, and an operate word decodes by bit 5. -/
section
namespace Sys2Proof.Machine

theorem flagOf_eq_of_toNat (v : Word) :
    flagOf v = if v = 0 then flagZ else if 0x8000 ≤ v.toNat then flagN else flagP := by
  have hsign : v.getLsbD 15 = decide (0x8000 ≤ v.toNat) :=
    (BitVec.msb_eq_getLsbD_last v).symm.trans (BitVec.msb_eq_decide v)
  simp only [flagOf, hsign, decide_eq_true_eq]

theorem writeDest_writesDest (s : State) (dr : Reg) (v : Word) : Spec.WritesDest s (s.writeDest dr v) dr v := by
  refine ⟨?_, fun r hr => ?_, ?_, rfl⟩
  · rw [writeDest_reg, if_pos rfl]
  · rw [writeDest_reg, if_neg hr.symm]
  · rw [writeDest_cond, flagOf_eq_of_toNat]

/-- An instruction that ends in `writeDest` completes, with DR and COND from the value the spec names (R86). -/
theorem exec_writesDest {i : Instr} {s : State} {dr : Reg} {v value : Word}
    (h : exec i s = .next (s.writeDest dr v)) (hv : v = value) :
    ∃ t, exec i s = .next t ∧ Spec.WritesDest s t dr value :=
  ⟨_, h, hv ▸ writeDest_writesDest s dr v⟩

theorem decode_of_add {w : Word} (h : opcodeOf w = .add) :
    decode w = if w.getLsbD 5 then .addImm (field w 9 3) (field w 6 3) (field w 0 5)
      else .addReg (field w 9 3) (field w 6 3) (field w 0 3) := by
  simp only [decode, h]

theorem decode_of_and {w : Word} (h : opcodeOf w = .and) :
    decode w = if w.getLsbD 5 then .andImm (field w 9 3) (field w 6 3) (field w 0 5)
      else .andReg (field w 9 3) (field w 6 3) (field w 0 3) := by
  simp only [decode, h]

theorem decode_of_not {w : Word} (h : opcodeOf w = .not) : decode w = .not (field w 9 3) (field w 6 3) := by
  simp only [decode, h]

theorem and_eq_ofNat (x y : Word) : x &&& y = BitVec.ofNat 16 (x.toNat &&& y.toNat) := by
  rw [BitVec.ofNat_and, BitVec.ofNat_toNat, BitVec.ofNat_toNat, BitVec.setWidth_eq, BitVec.setWidth_eq]

theorem sext_eq_ofInt {n : Nat} (v : BitVec n) : sext v = BitVec.ofInt 16 v.toInt := rfl

theorem complement_eq_ofNat (x : Word) : ~~~ x = BitVec.ofNat 16 (65535 - x.toNat) := by
  apply BitVec.eq_of_toNat_eq
  rw [BitVec.toNat_not, BitVec.toNat_ofNat]
  omega

/-- Settles O9, by `decode_of_add` at a clear bit 5 and `exec_writesDest`. -/
theorem addRegisterWritesSum : Obligations.AddRegisterWritesSum := by
  refine ⟨fun w hop hbit => ?_, fun dr sr1 sr2 s => ?_⟩
  · rw [decode_of_add hop, hbit, if_neg Bool.false_ne_true]
  · exact exec_writesDest rfl (BitVec.add_def (s.reg sr1) (s.reg sr2))

/-- Settles O10, by `decode_of_add` at a set bit 5 and `exec_writesDest`; the sum is `add_sext_eq_ofInt`'s. -/
theorem addImmediateWritesSum : Obligations.AddImmediateWritesSum := by
  refine ⟨fun w hop hbit => ?_, fun dr sr1 imm s => ?_⟩
  · rw [decode_of_add hop, if_pos hbit]
  · exact exec_writesDest rfl (add_sext_eq_ofInt (by decide) (s.reg sr1) imm)

/-- Settles O11, by `decode_of_and` at a clear bit 5 and `exec_writesDest`. -/
theorem andRegisterWritesConjunction : Obligations.AndRegisterWritesConjunction := by
  refine ⟨fun w hop hbit => ?_, fun dr sr1 sr2 s => ?_⟩
  · rw [decode_of_and hop, hbit, if_neg Bool.false_ne_true]
  · exact exec_writesDest rfl (and_eq_ofNat (s.reg sr1) (s.reg sr2))

/-- Settles O12, by `decode_of_and` at a set bit 5 and `exec_writesDest`. -/
theorem andImmediateWritesConjunction : Obligations.AndImmediateWritesConjunction := by
  refine ⟨fun w hop hbit => ?_, fun dr sr1 imm s => ?_⟩
  · rw [decode_of_and hop, if_pos hbit]
  · exact exec_writesDest rfl (congrArg (s.reg sr1 &&& ·) (sext_eq_ofInt imm))

/-- Settles O13: `decode_of_not` reads no bit below 6, and the complement is `complement_eq_ofNat`'s. -/
theorem notWritesComplement : Obligations.NotWritesComplement := by
  refine ⟨fun w hop => decode_of_not hop, fun dr sr s => ?_⟩
  exact exec_writesDest rfl (complement_eq_ofNat (s.reg sr))

end Sys2Proof.Machine
end

/-! Data movement (41_data_movement.md R120-R127): a load is `writeDest` of the cell in the state after its read, a load
or store through a pointer goes on in the state after the pointer's read, and each opcode's words decode to its fields. -/
section
namespace Sys2Proof.Machine

theorem decode_of_ld {w : Word} (h : opcodeOf w = .ld) : decode w = .ld (field w 9 3) (field w 0 9) := by
  simp only [decode, h]

theorem decode_of_ldi {w : Word} (h : opcodeOf w = .ldi) : decode w = .ldi (field w 9 3) (field w 0 9) := by
  simp only [decode, h]

theorem decode_of_ldr {w : Word} (h : opcodeOf w = .ldr) :
    decode w = .ldr (field w 9 3) (field w 6 3) (field w 0 6) := by
  simp only [decode, h]

theorem decode_of_lea {w : Word} (h : opcodeOf w = .lea) : decode w = .lea (field w 9 3) (field w 0 9) := by
  simp only [decode, h]

theorem decode_of_st {w : Word} (h : opcodeOf w = .st) : decode w = .st (field w 9 3) (field w 0 9) := by
  simp only [decode, h]

theorem decode_of_sti {w : Word} (h : opcodeOf w = .sti) : decode w = .sti (field w 9 3) (field w 0 9) := by
  simp only [decode, h]

theorem decode_of_str {w : Word} (h : opcodeOf w = .str) :
    decode w = .str (field w 9 3) (field w 6 3) (field w 0 6) := by
  simp only [decode, h]

/-- R120-R122: the poll comes before the cell is taken, so DR gets what the poll left there. -/
theorem load_writesDest (s : State) (dr : Reg) (ea : Word) :
    Spec.WritesDest (Spec.afterRead s ea) (s.load dr ea) dr ((Spec.afterRead s ea).cell ea) := by
  unfold State.load
  rw [memRead_eq_cell_afterRead]
  exact writeDest_writesDest _ dr _

/-- LDI is a load from the pointer, in the state after the pointer's read (R121). -/
theorem exec_ldi (dr : Reg) (off : BitVec 9) (s : State) :
    exec (.ldi dr off) s =
      .next ((Spec.afterRead s (s.pcOffset9 off)).load dr
        ((Spec.afterRead s (s.pcOffset9 off)).cell (s.pcOffset9 off))) := by
  simp only [exec, execLdi, memRead_eq_cell_afterRead]

/-- STI is a store to the pointer, in the state after the pointer's read (R125). -/
theorem exec_sti (sr : Reg) (off : BitVec 9) (s : State) :
    exec (.sti sr off) s =
      .next ((Spec.afterRead s (s.pcOffset9 off)).memWrite
        ((Spec.afterRead s (s.pcOffset9 off)).cell (s.pcOffset9 off)) (s.reg sr)) := by
  simp only [exec, execSti, memRead_eq_cell_afterRead]

/-- Settles O14, by `load_writesDest` at the PC-relative address. -/
theorem ldLoadsPcRelative : Obligations.LdLoadsPcRelative := by
  refine ⟨fun w => decode_of_ld, fun dr off s => ⟨_, rfl, ?_⟩⟩
  exact load_writesDest s dr (s.pcOffset9 off)

/-- Settles O15: `exec_ldi` reads the pointer, and `load_writesDest` the datum in the state after that read. -/
theorem ldiLoadsThroughPointer : Obligations.LdiLoadsThroughPointer := by
  refine ⟨fun w => decode_of_ldi, fun dr off s => ⟨_, _, _, _, exec_ldi dr off s, rfl, rfl, rfl, ?_⟩⟩
  exact load_writesDest _ dr _

/-- Settles O16, by `load_writesDest` at the address of the old base, so DR = BaseR is no special case. -/
theorem ldrLoadsBaseOffset : Obligations.LdrLoadsBaseOffset := by
  refine ⟨fun w => decode_of_ldr, fun dr base off s => ⟨_, rfl, ?_⟩⟩
  exact load_writesDest s dr (s.baseOffset6 base off)

/-- Settles O17, by `exec_writesDest` from the state before, as nothing is read; the sum is `add_sext_eq_ofInt`'s. -/
theorem leaWritesAddress : Obligations.LeaWritesAddress := by
  refine ⟨fun w => decode_of_lea, fun dr off s => ?_⟩
  exact exec_writesDest rfl (add_sext_eq_ofInt (by decide) s.pc off)

/-- Settles O18, by `memWrite_stores` at the PC-relative address. -/
theorem stStoresPcRelative : Obligations.StStoresPcRelative := by
  refine ⟨fun w => decode_of_st, fun sr off s => ⟨_, rfl, ?_⟩⟩
  exact memWrite_stores s (s.pcOffset9 off) (s.reg sr)

/-- Settles O19: `exec_sti` reads the pointer, and `memWrite_stores` speaks of the state after that read. -/
theorem stiStoresThroughPointer : Obligations.StiStoresThroughPointer := by
  refine ⟨fun w => decode_of_sti, fun sr off s => ⟨_, _, exec_sti sr off s, rfl, ?_⟩⟩
  exact memWrite_stores _ _ (s.reg sr)

/-- Settles O20, by `memWrite_stores` at the base + offset address. -/
theorem strStoresBaseOffset : Obligations.StrStoresBaseOffset := by
  refine ⟨fun w => decode_of_str, fun sr base off s => ⟨_, rfl, ?_⟩⟩
  exact memWrite_stores s (s.baseOffset6 base off) (s.reg sr)

end Sys2Proof.Machine
end

/-! Control (42_control.md R150-R156): BR's test is a shared set bit, a jump moves the PC alone, a link writes R7 alone,
and each opcode's words decode to its fields. -/
section
namespace Sys2Proof.Machine

theorem decode_of_br {w : Word} (h : opcodeOf w = .br) : decode w = .br (field w 9 3) (field w 0 9) := by
  simp only [decode, h]

theorem decode_of_jmp {w : Word} (h : opcodeOf w = .jmp) :
    decode w = if field w 6 3 = 7#3 then .ret else .jmp (field w 6 3) := by
  simp only [decode, h, decodeJump]

theorem decode_of_jsr {w : Word} (h : opcodeOf w = .jsr) :
    decode w = if w.getLsbD 11 then .jsr (field w 0 11) else .jsrr (field w 6 3) := by
  simp only [decode, h]

/-- A mask of three bits meets COND only in COND[2:0], so BR's test is a shared set bit of the whole register. -/
theorem condHolds_iff (s : State) (cond : BitVec 3) :
    s.condHolds cond = true ↔ ∃ k, cond.getLsbD k = true ∧ s.cond.getLsbD k = true := by
  have hbit (k : Nat) : (cond &&& s.cond.extractLsb' 0 3).getLsbD k = (cond.getLsbD k && s.cond.getLsbD k) := by
    by_cases hk : k < 3
    · simp [hk]
    · simp [BitVec.getLsbD_of_ge cond k (by omega)]
  rw [State.condHolds, decide_eq_true_eq]
  constructor
  · intro hne
    by_contra hnone
    refine hne (BitVec.eq_of_getLsbD_eq fun k _ => ?_)
    simpa [hbit] using not_exists.mp hnone k
  · rintro ⟨k, hcond, hflag⟩ hzero
    have hclear := hbit k
    simp [hzero, hcond, hflag] at hclear

theorem exec_br_of_condHolds {s : State} {cond : BitVec 3} (h : s.condHolds cond = true) (off : BitVec 9) :
    exec (.br cond off) s = .next (s.setPc (s.pcOffset9 off)) :=
  congrArg Host.Outcome.next (if_pos h)

theorem exec_br_of_not_condHolds {s : State} {cond : BitVec 3} (h : ¬ s.condHolds cond = true) (off : BitVec 9) :
    exec (.br cond off) s = .next s :=
  congrArg Host.Outcome.next (if_neg h)

theorem exec_jmp (base : Reg) (s : State) : exec (.jmp base) s = .next (s.setPc (s.reg base)) := rfl

theorem exec_ret_eq_jmp (s : State) : exec .ret s = exec (.jmp 7#3) s := rfl

theorem exec_jsr (off : BitVec 11) (s : State) : exec (.jsr off) s = .next (s.link.setPc (s.pcOffset11 off)) := rfl

/-- A jump moves the PC and nothing else. -/
theorem setPc_frame (s : State) (target : Word) : { s.setPc target with pc := s.pc } = s := rfl

/-- A call writes R7 and the PC and nothing else. -/
theorem link_setPc_frame (s : State) (target : Word) :
    { s.link.setPc target with pc := s.pc, regs := s.regs } = s := rfl

theorem link_reg_link (s : State) : s.link.reg 7#3 = s.pc := by
  rw [link_reg, if_pos rfl]

theorem link_reg_of_ne (s : State) {r : Reg} (hr : r ≠ 7#3) : s.link.reg r = s.reg r := by
  rw [link_reg, if_neg hr.symm]

/-- Settles O21: BR's test by `condHolds_iff`, the taken target by `add_sext_eq_ofInt`. -/
theorem brBranchesOnSharedFlag : Obligations.BrBranchesOnSharedFlag := by
  refine ⟨fun w => decode_of_br, fun cond off s => ?_⟩
  by_cases hshared : ∃ k, cond.getLsbD k = true ∧ s.cond.getLsbD k = true
  · refine ⟨_, exec_br_of_condHolds ((condHolds_iff s cond).mpr hshared) off, fun _ => ?_, fun hnone => ?_,
      setPc_frame s _⟩
    · exact add_sext_eq_ofInt (by decide) s.pc off
    · obtain ⟨k, hcond, hflag⟩ := hshared
      exact absurd hflag (Bool.eq_false_iff.mp (hnone k hcond))
  · have hnot : ¬ s.condHolds cond = true := mt (condHolds_iff s cond).mp hshared
    exact ⟨s, exec_br_of_not_condHolds hnot off, fun hsome => absurd hsome hshared, fun _ => rfl, rfl⟩

/-- Settles O22, by `decode_of_jmp`, `exec_jmp` and the frame of a jump. -/
theorem jmpGoesToBase : Obligations.JmpGoesToBase := by
  refine ⟨fun w => decode_of_jmp, fun base s => ?_, exec_ret_eq_jmp⟩
  exact ⟨_, exec_jmp base s, setPc_pc s _, setPc_frame s _⟩

/-- Settles O23: RET is JMP through R7, in the decoder by `decode_of_jmp` and in its meaning by `exec_ret_eq_jmp`. -/
theorem retGoesToLink : Obligations.RetGoesToLink := by
  refine ⟨fun w hop hbase => ?_, fun s => ⟨exec_ret_eq_jmp s, ?_⟩⟩
  · rw [decode_of_jmp hop, if_pos hbase]
  · exact ⟨_, (exec_ret_eq_jmp s).trans (exec_jmp 7#3 s), setPc_pc s _, setPc_frame s _⟩

/-- Settles O24: R7 and the other registers by the link's two reads, the target by `add_sext_eq_ofInt`. -/
theorem jsrLinksAndBranches : Obligations.JsrLinksAndBranches := by
  refine ⟨fun w hop hbit => ?_, fun off s => ⟨_, exec_jsr off s, link_reg_link s, fun r hr => ?_, ?_,
    link_setPc_frame s _⟩⟩
  · rw [decode_of_jsr hop, if_pos hbit]
  · exact link_reg_of_ne s hr
  · exact add_sext_eq_ofInt (by decide) s.pc off

end Sys2Proof.Machine
end

/-! Traps and system (43_trap_and_system.md R170-R180): a routine that writes and ends meets `Spec.EndsTrap`, the one
exception entry moves the controller alone, and a TRAP word decodes by its vector. -/
section
namespace Sys2Proof.Machine

theorem decode_of_trap {w : Word} (h : opcodeOf w = .trap) : decode w = decodeTrap (field w 0 8) := by
  simp only [decode, h]

theorem decodeTrap_out : decodeTrap TrapVector.out = .trapOut := by decide

theorem decodeTrap_halt : decodeTrap TrapVector.halt = .trapHalt := by decide

theorem decode_of_rti {w : Word} (h : opcodeOf w = .rti) : decode w = .rti := by
  simp only [decode, h]

theorem decode_of_res {w : Word} (h : opcodeOf w = .res) : decode w = .res := by
  simp only [decode, h]

theorem lowByte_eq_ofNat (w : Word) : lowByte w = BitVec.ofNat 8 w.toNat := by
  rw [BitVec.ofNat_toNat, BitVec.setWidth_eq_extractLsb' (by decide)]
  rfl

theorem out_endRoutine_endsTrap (s : State) (bytes : List Byte) :
    Spec.EndsTrap s (s.out bytes).endRoutine bytes :=
  ⟨out_output s bytes, endRoutine_flushed _, endRoutine_routine _, rfl⟩

theorem out_endRoutine_keepsRegsAndInput (s : State) (bytes : List Byte) :
    Spec.KeepsRegsAndInput s (s.out bytes).endRoutine :=
  ⟨out_regs s bytes, out_cond s bytes, out_input s bytes, out_consumed s bytes⟩

theorem exec_trapOut (s : State) : exec .trapOut s = .next (s.out [lowByte (s.reg 0#3)]).endRoutine := rfl

theorem exec_trapHalt (s : State) :
    exec .trapHalt s = .next ((s.out Config.haltMessage).endRoutine.setRun .halted) := rfl

theorem exec_rti (s : State) : exec .rti s = s.raise (.invalidOpcode .rti s.ir (s.pc - 1)) := rfl

theorem exec_res (s : State) : exec .res s = s.raise (.invalidOpcode .res s.ir (s.pc - 1)) := rfl

/-- R201, R202: an abort moves the controller alone, to FAULTED with its reason and info, and no step follows. -/
theorem raise_aborts (s : State) (a : Abort) :
    ∃ t, s.raise a = .next t ∧ t.run = .faulted a ∧ { t with run := s.run } = s ∧ step t = .fault (.faulted a) :=
  ⟨s.setRun (.faulted a), rfl, setRun_run s _, rfl, step_of_faulted (setRun_run s _)⟩

/-- Settles O27: the vector by `decode_of_trap`, the output by `out_endRoutine_endsTrap` at R0's low byte. -/
theorem outWritesLowByte : Obligations.OutWritesLowByte := by
  refine ⟨fun w hop hvec => ?_, fun s => ⟨_, exec_trapOut s, ?_, ?_⟩⟩
  · rw [decode_of_trap hop, hvec, decodeTrap_out]
  · rw [← lowByte_eq_ofNat]
    exact out_endRoutine_endsTrap s _
  · exact out_endRoutine_keepsRegsAndInput s _

/-- Settles O31: but for the controller HALT leaves what a routine leaves that wrote HaltMessage, and HALTED has no
step by `step_of_halted`. -/
theorem haltAnnouncesAndHalts : Obligations.HaltAnnouncesAndHalts := by
  refine ⟨fun w hop hvec => ?_, fun s => ⟨_, exec_trapHalt s, setRun_run _ _, ?_, ?_, ?_⟩⟩
  · rw [decode_of_trap hop, hvec, decodeTrap_halt]
  · exact out_endRoutine_endsTrap s Config.haltMessage
  · exact out_endRoutine_keepsRegsAndInput s Config.haltMessage
  · exact step_of_halted (setRun_run _ _)

/-- Settles O33: RTI and RES only raise their abort, so both are `raise_aborts`. -/
theorem invalidOpcodesAbort : Obligations.InvalidOpcodesAbort := by
  refine ⟨fun w => decode_of_rti, fun w => decode_of_res, fun s => ⟨?_, ?_⟩⟩
  · rw [exec_rti]
    exact raise_aborts s _
  · rw [exec_res]
    exact raise_aborts s _

end Sys2Proof.Machine
end

/-! Exceptions (60_exceptions.md R200-R206): the controller after an instruction is `Spec.runAfter`, so from RUNNING only
RTI, RES and an unknown vector reach FAULTED, each by `raise` alone, and the vector raised is the fetched word's. -/
section
namespace Sys2Proof.Machine

@[simp] theorem getcBody_run (s : State) : s.getcBody.run = s.run := by
  obtain ⟨c, s', hread, hbody⟩ | ⟨-, hbody⟩ := getcBody_cases s
  · rw [hbody, takeChar_run, inRead_frame hread]
  · rw [hbody, setRoutine_run]

@[simp] theorem inBody_run (s : State) : s.inBody.run = s.run := by
  obtain ⟨c, s', hread, hbody⟩ | ⟨-, hbody⟩ := inBody_cases s
  · rw [hbody, takeChar_run, out_run, inRead_frame hread]
  · rw [hbody, setRoutine_run]

@[simp] theorem stringBody_run (r : Routine) (bytes : List Word → List Byte) (s : State) :
    (s.stringBody r bytes).run = s.run := by
  obtain hbody | hbody := stringBody_cases r bytes s <;> rw [hbody]
  · rw [endRoutine_run, out_run]
  · rw [setRoutine_run, out_run]

/-- Only HALT and the three aborts move the controller (10_state.md R29; 60_exceptions.md R201). -/
theorem exec_run {i : Instr} {s t : State} (h : exec i s = .next t) : t.run = Spec.runAfter i s := by
  cases i with
  | br cond off => cases h; split <;> rfl
  | ld dr off | ldr dr base off => cases h; exact load_run s dr _
  | ldi dr off => cases h; exact (load_run _ dr _).trans (memRead_run s _)
  | sti sr off => cases h; exact memRead_run s _
  | trapGetc => cases h; exact getcBody_run s
  | trapIn => cases h; exact inBody_run (s.out Config.inPrompt)
  | trapPuts | trapPutsp => cases h; exact stringBody_run _ _ s
  | _ => cases h; rfl

/-- From RUNNING an instruction that ends in FAULTED only raises, and it is RTI, RES or an unknown vector (R201). -/
theorem exec_eq_raise_of_faulted {i : Instr} {s t : State} {a : Abort} (hrunning : s.run = .running)
    (h : exec i s = .next t) (hfaulted : t.run = .faulted a) :
    exec i s = s.raise a ∧
      ((i = .rti ∧ a = .invalidOpcode .rti s.ir (s.pc - 1)) ∨
        (i = .res ∧ a = .invalidOpcode .res s.ir (s.pc - 1)) ∨
        ∃ v, i = .trapOther v ∧ a = .unknownTrapVector v s.ir (s.pc - 1)) := by
  have hafter : Spec.runAfter i s = .faulted a := (exec_run h).symm.trans hfaulted
  cases i with
  | rti => cases hafter; exact ⟨rfl, .inl ⟨rfl, rfl⟩⟩
  | res => cases hafter; exact ⟨rfl, .inr (.inl ⟨rfl, rfl⟩)⟩
  | trapOther v => cases hafter; exact ⟨rfl, .inr (.inr ⟨v, rfl, rfl⟩)⟩
  | trapHalt => cases hafter
  | _ => cases hrunning.symm.trans hafter

theorem eq_of_decodeTrap_eq_trapOther {v v' : Byte} (h : decodeTrap v = .trapOther v') : v' = v := by
  unfold decodeTrap at h
  split_ifs at h
  exact (Instr.trapOther.inj h).symm

/-- The vector of an unknown-vector TRAP is the low byte of its word (30_encoding.md R67). -/
theorem eq_field_of_decode_eq_trapOther {w : Word} {v : Byte} (h : decode w = .trapOther v) : v = field w 0 8 := by
  cases hop : opcodeOf w with
  | trap => exact eq_of_decodeTrap_eq_trapOther ((decode_of_trap hop).symm.trans h)
  | add => rw [decode_of_add hop] at h; split at h <;> cases h
  | and => rw [decode_of_and hop] at h; split at h <;> cases h
  | jsr => rw [decode_of_jsr hop] at h; split at h <;> cases h
  | jmp => rw [decode_of_jmp hop] at h; split at h <;> cases h
  | _ => simp only [decode, hop, reduceCtorEq] at h

theorem fetch_pc_sub_one (s : State) : s.fetch.pc - 1 = s.pc := by
  rw [fetch_pc, BitVec.add_sub_cancel]

/-- Settles O40: the faulting instruction only raises (`exec_eq_raise_of_faulted`), so `raise_aborts` gives the frame
and the end of the run, and the fetch gives the address and the vector of the abort. -/
theorem faultsArePrecise : Obligations.FaultsArePrecise := by
  intro s t a hfetch hstep hfaulted
  rw [step_atFetch hfetch] at hstep
  obtain ⟨hraise, habort⟩ := exec_eq_raise_of_faulted ((fetch_run s).trans hfetch.1) hstep hfaulted
  obtain ⟨t', hnext, -, hframe, hstop⟩ := raise_aborts s.fetch a
  obtain rfl : t = t' := Host.Outcome.next.inj (hstep.symm.trans (hraise.trans hnext))
  rw [fetch_run] at hframe
  refine ⟨hframe, ?_, fun u hu => ?_⟩
  · rw [exec_ir hstep]
    obtain ⟨-, ha⟩ | ⟨-, ha⟩ | ⟨v, hdecode, ha⟩ := habort <;> rw [fetch_pc_sub_one] at ha
    · exact .inl ha
    · exact .inr (.inl ha)
    · exact .inr (.inr (eq_field_of_decode_eq_trapOther hdecode ▸ ha))
  · cases hstop.symm.trans hu

end Sys2Proof.Machine
end

/-! The loader (70_reset_and_hazards.md R232-R234): loading moves the memory alone, keeps its canonical form, and leaves
in each cell the image's word where an image that fits covers it; the images are then a fold over their order. -/
section
namespace Sys2Proof.Machine

/-! ### What loading leaves alone -/

theorem loadWords_frame (s : State) (a : Word) (words : List Word) (m : Memory) :
    { s.loadWords a words with mem := m } = { s with mem := m } := by
  induction words generalizing s a with
  | nil => rfl
  | cons w rest ih => exact ih (s.memWrite a w) (a + 1)

theorem loadImages_frame (s : State) (images : List Image) (m : Memory) :
    { s.loadImages images with mem := m } = { s with mem := m } := by
  induction images generalizing s with
  | nil => rfl
  | cons i rest ih => exact (ih (s.loadImage i)).trans (loadWords_frame s i.origin i.words m)

theorem loadWords_wf {s : State} (a : Word) (words : List Word) (h : Memory.wf s.mem = true) :
    Memory.wf (s.loadWords a words).mem = true := by
  induction words generalizing s a with
  | nil => exact h
  | cons w rest ih => exact ih (a + 1) (memWrite_wf a w h)

/-! ### The word an image puts at an address -/

theorem imageWord_nil (a b : Word) : Spec.imageWord ⟨a, []⟩ b = none := by
  simp [Spec.imageWord]

theorem imageWord_cons_self (a w : Word) (rest : List Word) : Spec.imageWord ⟨a, w :: rest⟩ a = some w := by
  simp [Spec.imageWord]

theorem imageWord_of_lt {i : Image} {b : Word} (h : b.toNat < i.origin.toNat) : Spec.imageWord i b = none :=
  if_neg (Nat.not_le.mpr h)

/-- No address after `a` wraps around while words are left to load. -/
theorem toNat_add_one_of_fits {a w : Word} {rest : List Word} (hrest : rest ≠ [])
    (hfit : a.toNat + (w :: rest).length ≤ 0x10000) : (a + 1).toNat = a.toNat + 1 := by
  have hlen : 0 < rest.length := List.length_pos_of_ne_nil hrest
  rw [List.length_cons] at hfit
  rw [add_one_eq_ofNat, BitVec.toNat_ofNat, Nat.mod_eq_of_lt (by omega)]

/-- The rest of an image that fits puts nothing at its first cell or below. -/
theorem imageWord_rest_of_le {a b w : Word} {rest : List Word} (hfit : a.toNat + (w :: rest).length ≤ 0x10000)
    (hle : b.toNat ≤ a.toNat) : Spec.imageWord ⟨a + 1, rest⟩ b = none := by
  by_cases hrest : rest = []
  · rw [hrest, imageWord_nil]
  · apply imageWord_of_lt
    rw [toNat_add_one_of_fits hrest hfit]
    exact Nat.lt_succ_of_le hle

/-- At any other cell an image that fits puts what its rest puts there. -/
theorem imageWord_cons_of_ne {a b w : Word} {rest : List Word} (hab : a ≠ b)
    (hfit : a.toNat + (w :: rest).length ≤ 0x10000) :
    Spec.imageWord ⟨a, w :: rest⟩ b = Spec.imageWord ⟨a + 1, rest⟩ b := by
  obtain hlt | hgt := Nat.lt_or_gt_of_ne (mt BitVec.eq_of_toNat_eq hab)
  · have hindex : b.toNat - a.toNat = b.toNat - (a.toNat + 1) + 1 := by omega
    have hcons : Spec.imageWord ⟨a, w :: rest⟩ b = rest[b.toNat - (a.toNat + 1)]? := by
      rw [Spec.imageWord, if_pos hlt.le, hindex, List.getElem?_cons_succ]
    by_cases hrest : rest = []
    · rw [hcons, hrest, imageWord_nil, List.getElem?_nil]
    · rw [hcons, Spec.imageWord, toNat_add_one_of_fits hrest hfit, if_pos (Nat.succ_le_of_lt hlt)]
  · rw [imageWord_of_lt hgt, imageWord_rest_of_le hfit hgt.le]

/-! ### The cells after loading -/

theorem loadWords_cell {s : State} {a : Word} {words : List Word} (hfit : a.toNat + words.length ≤ 0x10000)
    (hwf : Memory.wf s.mem = true) (b : Word) :
    (s.loadWords a words).cell b = (Spec.imageWord ⟨a, words⟩ b).getD (s.cell b) := by
  induction words generalizing s a with
  | nil => rw [imageWord_nil]; rfl
  | cons w rest ih =>
    have hfitRest : (a + 1).toNat + rest.length ≤ 0x10000 := by
      rw [List.length_cons] at hfit
      rw [add_one_eq_ofNat, BitVec.toNat_ofNat]
      omega
    rw [State.loadWords, ih hfitRest (memWrite_wf a w hwf), memWrite_cell s a b w hwf]
    by_cases hab : a = b
    · rw [← hab, imageWord_rest_of_le hfit le_rfl, imageWord_cons_self, if_pos rfl]
      rfl
    · rw [if_neg hab, imageWord_cons_of_ne hab hfit]

theorem loadImages_cell {s : State} {images : List Image} (hfits : ∀ i ∈ images, i.fits = true)
    (hwf : Memory.wf s.mem = true) (b : Word) :
    (s.loadImages images).cell b = images.foldl (fun v i => (Spec.imageWord i b).getD v) (s.cell b) := by
  induction images generalizing s with
  | nil => rfl
  | cons i rest ih =>
    obtain ⟨hfit, hfitsRest⟩ := List.forall_mem_cons.mp hfits
    have hcell : (s.loadImage i).cell b = (Spec.imageWord i b).getD (s.cell b) :=
      loadWords_cell (of_decide_eq_true hfit) hwf b
    rw [List.foldl_cons, ← hcell]
    exact ih hfitsRest (loadWords_wf i.origin i.words hwf)

/-- An accepted launch: every image fits, and the state is the loaded reset state with its input stream. -/
theorem launch_eq_some {images : List Image} {input : List Byte} {ended : Bool} {s : State}
    (h : launch images input ended = some s) :
    (∀ i ∈ images, i.fits = true) ∧
      s = { State.reset.loadImages images with input := input, inputEnded := ended } := by
  unfold launch at h
  split at h
  case isTrue hall => exact ⟨List.all_eq_true.mp hall, (Option.some.inj h).symm⟩
  case isFalse => cases h

/-- Settles O55: the cells by `loadImages_cell` from the canonical memory of reset, all else by `loadImages_frame`. -/
theorem loadedImagesLaterWin : Obligations.LoadedImagesLaterWin := by
  intro images input ended s h
  obtain ⟨hfits, rfl⟩ := launch_eq_some h
  have hframe := loadImages_frame State.reset images
  refine ⟨loadImages_cell hfits reset_mem_wf, congrArg State.pc (hframe []), rfl, rfl, ?_⟩
  exact congrArg (fun t : State => { t with input := State.reset.input, inputEnded := State.reset.inputEnded })
    (hframe State.reset.mem)

end Sys2Proof.Machine
end

/-! The encoder against the decoder (30_encoding.md R61-R68): under any opcode each layout of fields reads back, so the
word of a well-formed instruction decodes to it. -/
section
namespace Sys2Proof

/-! ### The layouts of the table's rows -/

@[simp] theorem fields_registerOffset9 (op : Opcode) (r : BitVec 3) (off : BitVec 9) :
    field (withOpcode op (place r 9 ||| place off 0)) 9 3 = r ∧
      field (withOpcode op (place r 9 ||| place off 0)) 0 9 = off := by
  simp [field_withOpcode, field_or, field_place, field_place_beside]

@[simp] theorem fields_registerBaseOffset6 (op : Opcode) (r base : Reg) (off : BitVec 6) :
    field (withOpcode op (place r 9 ||| place base 6 ||| place off 0)) 9 3 = r ∧
      field (withOpcode op (place r 9 ||| place base 6 ||| place off 0)) 6 3 = base ∧
      field (withOpcode op (place r 9 ||| place base 6 ||| place off 0)) 0 6 = off := by
  simp [field_withOpcode, field_or, field_place, field_place_beside]

@[simp] theorem fields_threeRegisters (op : Opcode) (dr sr1 sr2 : Reg) :
    field (withOpcode op (place dr 9 ||| place sr1 6 ||| place sr2 0)) 9 3 = dr ∧
      field (withOpcode op (place dr 9 ||| place sr1 6 ||| place sr2 0)) 6 3 = sr1 ∧
      field (withOpcode op (place dr 9 ||| place sr1 6 ||| place sr2 0)) 0 3 = sr2 := by
  simp [field_withOpcode, field_or, field_place, field_place_beside]

@[simp] theorem fields_registersImmediate (op : Opcode) (dr sr1 : Reg) (imm : BitVec 5) :
    field (withOpcode op (place dr 9 ||| place sr1 6 ||| place 1#1 5 ||| place imm 0)) 9 3 = dr ∧
      field (withOpcode op (place dr 9 ||| place sr1 6 ||| place 1#1 5 ||| place imm 0)) 6 3 = sr1 ∧
      field (withOpcode op (place dr 9 ||| place sr1 6 ||| place 1#1 5 ||| place imm 0)) 0 5 = imm := by
  simp [field_withOpcode, field_or, field_place, field_place_beside]

theorem modeBit_threeRegisters (op : Opcode) (dr sr1 sr2 : Reg) :
    (withOpcode op (place dr 9 ||| place sr1 6 ||| place sr2 0)).getLsbD 5 = false := by
  rw [getLsbD_withOpcode _ _ (by decide), BitVec.getLsbD_or, BitVec.getLsbD_or, getLsbD_place_above sr2 (by decide)]
  simp [getLsbD_place, -BitVec.getLsbD_eq_getElem]

theorem modeBit_registersImmediate (op : Opcode) (dr sr1 : Reg) (imm : BitVec 5) :
    (withOpcode op (place dr 9 ||| place sr1 6 ||| place 1#1 5 ||| place imm 0)).getLsbD 5 = true := by
  rw [getLsbD_withOpcode _ _ (by decide)]
  simp [getLsbD_place, -BitVec.getLsbD_eq_getElem]

@[simp] theorem field_jsr (off : BitVec 11) : field (encode (.jsr off)) 0 11 = off := by
  simp [encode, field_withOpcode, field_or, field_place, field_place_beside]

@[simp] theorem field_jsrr (base : Reg) : field (encode (.jsrr base)) 6 3 = base := by
  simp [encode, field_withOpcode, field_place]

theorem linkBit_jsr (off : BitVec 11) : (encode (.jsr off)).getLsbD 11 = true := by
  rw [encode, getLsbD_withOpcode _ _ (by decide), BitVec.getLsbD_or, getLsbD_place]
  simp

theorem linkBit_jsrr (base : Reg) : (encode (.jsrr base)).getLsbD 11 = false := by
  rw [encode, getLsbD_withOpcode _ _ (by decide), getLsbD_place_above base (by decide)]

/-! ### Round trip -/

theorem decode_eq_decodeJump {w : Word} (h : opcodeOf w = .jmp) : decode w = decodeJump (field w 6 3) :=
  Machine.decode_of_jmp h

/-- The word of a jump decodes by its base. -/
theorem decode_jumpWord (base : Reg) : decode (withOpcode .jmp (place base 6)) = decodeJump base := by
  have hop : opcodeOf (withOpcode .jmp (place base 6)) = .jmp := Laws.EncodeOpcode.jmp base
  rw [decode_eq_decodeJump hop, field_withOpcode .jmp _ (by decide), field_place base 6 (by decide)]

/-- The word of a trap decodes by its vector. -/
theorem decode_trapWord (v : Byte) : decode (withOpcode .trap (place v 0)) = decodeTrap v := by
  have hop : opcodeOf (withOpcode .trap (place v 0)) = .trap := Laws.EncodeOpcode.trapOther v
  rw [Machine.decode_of_trap hop, field_withOpcode .trap _ (by decide), field_place v 0 (by decide)]

theorem decodeTrap_of_not_mem {v : Byte} (h : v ∉ TrapVector.all) : decodeTrap v = .trapOther v := by
  simp only [TrapVector.all, List.mem_cons, List.not_mem_nil, or_false, not_or] at h
  obtain ⟨hgetc, hout, hputs, hinp, hputsp, hhalt⟩ := h
  rw [decodeTrap, if_neg hgetc, if_neg hout, if_neg hputs, if_neg hinp, if_neg hputsp, if_neg hhalt]

open Laws.EncodeOpcode Machine in
/-- Settles O52: the opcode reads back by `Laws.EncodeOpcode`, and under it the fields by the lemma of their layout; a
jump and a trap are well formed exactly where the decoder gives them that name. -/
theorem decodeEncodeRoundTrip : Obligations.DecodeEncodeRoundTrip := by
  intro i hwf
  cases i with
  | br cond off => rw [decode_of_br (br cond off)]; simp [encode]
  | ld dr off => rw [decode_of_ld (ld dr off)]; simp [encode]
  | st sr off => rw [decode_of_st (st sr off)]; simp [encode]
  | ldi dr off => rw [decode_of_ldi (ldi dr off)]; simp [encode]
  | sti sr off => rw [decode_of_sti (sti sr off)]; simp [encode]
  | lea dr off => rw [decode_of_lea (lea dr off)]; simp [encode]
  | ldr dr base off => rw [decode_of_ldr (ldr dr base off)]; simp [encode]
  | str sr base off => rw [decode_of_str (str sr base off)]; simp [encode]
  | not dr sr => rw [decode_of_not (not dr sr)]; simp [encode]
  | addReg dr sr1 sr2 => rw [decode_of_add (addReg dr sr1 sr2), encode, modeBit_threeRegisters]; simp
  | andReg dr sr1 sr2 => rw [decode_of_and (andReg dr sr1 sr2), encode, modeBit_threeRegisters]; simp
  | addImm dr sr1 imm => rw [decode_of_add (addImm dr sr1 imm), encode, modeBit_registersImmediate]; simp
  | andImm dr sr1 imm => rw [decode_of_and (andImm dr sr1 imm), encode, modeBit_registersImmediate]; simp
  | jsr off => rw [decode_of_jsr (jsr off), linkBit_jsr]; simp
  | jsrr base => rw [decode_of_jsr (jsrr base), linkBit_jsrr]; simp
  | rti => exact decode_of_rti rti
  | res => exact decode_of_res res
  | jmp base => exact (decode_jumpWord base).trans (if_neg (of_decide_eq_true hwf))
  | ret => exact decode_jumpWord 7#3
  | trapOther v => exact (decode_trapWord v).trans (decodeTrap_of_not_mem (by simpa [Instr.wf] using hwf))
  | trapGetc | trapOut | trapPuts | trapIn | trapPutsp | trapHalt => exact decode_trapWord _

end Sys2Proof
end

/-! What the decoder reads (30_encoding.md R64, R68): it names every word well formed, the bits it does not read have no
say, and all others come back in the encoder's word. -/
section
namespace Sys2Proof

theorem decodeTrap_wf (v : Byte) : (decodeTrap v).wf = true := by
  by_cases hv : v ∈ TrapVector.all
  · have hroutine : ∀ v ∈ TrapVector.all, (decodeTrap v).wf = true := by decide
    exact hroutine v hv
  · rw [decodeTrap_of_not_mem hv]
    simpa [Instr.wf] using hv

theorem decodeJump_wf (base : Reg) : (decodeJump base).wf = true := by
  unfold decodeJump
  split
  case isTrue => rfl
  case isFalse hbase => exact decide_eq_true hbase

open Machine in
/-- Settles O51: only JMP and TRAP words can be named ill formed, and `decodeJump` and `decodeTrap` name them well. -/
theorem decodeIsWellFormed : Obligations.DecodeIsWellFormed := by
  intro w
  cases hop : opcodeOf w with
  | jmp => rw [decode_eq_decodeJump hop]; exact decodeJump_wf _
  | trap => rw [decode_of_trap hop]; exact decodeTrap_wf _
  | add => rw [decode_of_add hop]; split <;> rfl
  | and => rw [decode_of_and hop]; split <;> rfl
  | jsr => rw [decode_of_jsr hop]; split <;> rfl
  | _ => simp only [decode, hop, Instr.wf]

/-! ### The instructions that one decoder of a field can name -/

theorem decodeJump_unreadBits (base : Reg) : unreadBits (decodeJump base) = 0x0E3F := by
  unfold decodeJump
  split <;> rfl

theorem decodeTrap_unreadBits (v : Byte) : unreadBits (decodeTrap v) = 0x0F00 := by
  by_cases hv : v ∈ TrapVector.all
  · have hroutine : ∀ v ∈ TrapVector.all, unreadBits (decodeTrap v) = 0x0F00 := by decide
    exact hroutine v hv
  · rw [decodeTrap_of_not_mem hv, unreadBits]

theorem encode_decodeJump (base : Reg) : encode (decodeJump base) = withOpcode .jmp (place base 6) := by
  unfold decodeJump
  split
  case isTrue hbase => rw [hbase, encode]
  case isFalse => rfl

theorem encode_decodeTrap (v : Byte) : encode (decodeTrap v) = withOpcode .trap (place v 0) := by
  by_cases hv : v ∈ TrapVector.all
  · have hroutine : ∀ v ∈ TrapVector.all, encode (decodeTrap v) = withOpcode .trap (place v 0) := by decide
    exact hroutine v hv
  · rw [decodeTrap_of_not_mem hv, encode]

/-! ### A word with masked bits changed -/

theorem getLsbD_xor_masked {m : Word} {k : Nat} (h : m.getLsbD k = false) (w x : Word) :
    (w ^^^ (x &&& m)).getLsbD k = w.getLsbD k := by
  rw [BitVec.getLsbD_xor, BitVec.getLsbD_and, h, Bool.and_false, Bool.xor_false]

theorem field_xor_masked {m : Word} {lo n : Nat} (h : field m lo n = 0#n) (w x : Word) :
    field (w ^^^ (x &&& m)) lo n = field w lo n := by
  apply BitVec.eq_of_getLsbD_eq
  intro k hk
  have hclear : m.getLsbD (lo + k) = false := by
    rw [← Bool.true_and (m.getLsbD _), ← decide_eq_true hk, ← getLsbD_field, h, BitVec.getLsbD_zero]
  rw [getLsbD_field, getLsbD_field, getLsbD_xor_masked hclear]

theorem opcodeOf_xor_masked {m : Word} (h : field m 12 4 = 0#4) (w x : Word) :
    opcodeOf (w ^^^ (x &&& m)) = opcodeOf w := by
  rw [opcodeOf, field_xor_masked h, opcodeOf]

theorem decode_xor_of_unreadBits_eq_zero {w : Word} (h : unreadBits (decode w) = 0#16) (x : Word) :
    decode (w ^^^ (x &&& unreadBits (decode w))) = decode w := by
  rw [h, BitVec.and_zero, BitVec.xor_zero]

open Machine in
/-- Where the decoder reads every bit there is nothing to change; elsewhere the mask is clear in the opcode, in the
instruction's fields and in its mode bit. -/
theorem decode_xor_unreadBits (w x : Word) : decode (w ^^^ (x &&& unreadBits (decode w))) = decode w := by
  cases hop : opcodeOf w with
  | add | and =>
    by_cases hmode : w.getLsbD 5
    · exact decode_xor_of_unreadBits_eq_zero (by simp only [decode, hop, hmode]; rfl) x
    · simp (disch := decide) only [decode, hop, if_neg hmode, unreadBits, opcodeOf_xor_masked, getLsbD_xor_masked,
        field_xor_masked]
  | jsr =>
    by_cases hmode : w.getLsbD 11
    · exact decode_xor_of_unreadBits_eq_zero (by simp only [decode, hop, hmode]; rfl) x
    · simp (disch := decide) only [decode, hop, if_neg hmode, unreadBits, opcodeOf_xor_masked, getLsbD_xor_masked,
        field_xor_masked]
  | not =>
    rw [decode_of_not hop, unreadBits]
    simp (disch := decide) only [decode, opcodeOf_xor_masked, hop, field_xor_masked]
  | jmp =>
    rw [decode_eq_decodeJump hop, decodeJump_unreadBits]
    simp (disch := decide) only [decode, opcodeOf_xor_masked, hop, field_xor_masked]
  | trap =>
    rw [decode_of_trap hop, decodeTrap_unreadBits]
    simp (disch := decide) only [decode, opcodeOf_xor_masked, hop, field_xor_masked]
  | rti | res =>
    simp (disch := decide) only [decode, hop, unreadBits, opcodeOf_xor_masked]
  | _ => exact decode_xor_of_unreadBits_eq_zero (by rw [decode, hop]; rfl) x

/-! ### The encoder's word of a decoded instruction -/

theorem place_field (w : Word) (lo n : Nat) :
    place (field w lo n) lo = w &&& place (BitVec.allOnes n) lo := by
  apply BitVec.eq_of_getLsbD_eq
  intro k hk
  rw [BitVec.getLsbD_and, getLsbD_place, getLsbD_place, getLsbD_field, BitVec.getLsbD_allOnes]
  by_cases hlo : k < lo
  · simp only [hlo, decide_true, Bool.not_true, Bool.and_false, Bool.false_and]
  · have hsum : lo + (k - lo) = k := by omega
    simp only [hk, hlo, hsum, decide_true, decide_false, Bool.not_false, Bool.true_and, Bool.and_comm]

theorem field_one (w : Word) (k : Nat) : field w k 1 = BitVec.ofBool (w.getLsbD k) := by
  apply BitVec.eq_of_getLsbD_eq
  intro j hj
  obtain rfl : j = 0 := Nat.lt_one_iff.mp hj
  rw [getLsbD_field, BitVec.getLsbD_ofBool, Nat.add_zero]
  rfl

/-- A bit that is set comes back from the 1 that the encoder places there. -/
theorem place_one_of_getLsbD {w : Word} {k : Nat} (h : w.getLsbD k = true) :
    place 1#1 k = w &&& place (BitVec.allOnes 1) k := by
  rw [← place_field, field_one, h]
  rfl

theorem and_place_one_of_not_getLsbD {w : Word} {k : Nat} (h : ¬ w.getLsbD k = true) : w &&& place 1#1 k = 0#16 := by
  have hplace : w &&& place 1#1 k = place (field w k 1) k := (place_field w k 1).symm
  rw [hplace, field_one, Bool.eq_false_iff.mpr h]
  simp [place]

theorem opcodeBits_opcodeOfBits (b : BitVec 4) : opcodeBits (opcodeOfBits b) = b := by
  revert b
  decide

theorem withOpcode_of_opcodeOf {w : Word} {op : Opcode} (h : opcodeOf w = op) (rest : Word) :
    withOpcode op rest = w &&& place (BitVec.allOnes 4) 12 ||| rest := by
  rw [withOpcode, ← h, opcodeOf, opcodeBits_opcodeOfBits, place_field]

/-- `word` holds the bits `kept` of `w` and no others but unread ones. If `w` is clear in every bit that is neither kept
nor unread, the two differ in unread bits only. -/
theorem differs_in_unread {w word kept unread clear : Word} (hkept : word ||| unread = w &&& kept ||| unread)
    (hclear : w &&& clear = 0#16) (hcover : kept ||| unread ||| clear = BitVec.allOnes 16) :
    (word ^^^ w) &&& ~~~unread = 0#16 := by
  apply BitVec.eq_of_getLsbD_eq
  intro k hk
  have hkept := congrArg (BitVec.getLsbD · k) hkept
  have hclear := congrArg (BitVec.getLsbD · k) hclear
  have hcover := congrArg (BitVec.getLsbD · k) hcover
  simp only [BitVec.getLsbD_or, BitVec.getLsbD_and, BitVec.getLsbD_allOnes, BitVec.getLsbD_zero, hk, decide_true]
    at hkept hclear hcover
  rw [BitVec.getLsbD_and, BitVec.getLsbD_xor, BitVec.getLsbD_not, BitVec.getLsbD_zero, decide_eq_true hk]
  grind

open Machine in
/-- Each field comes back as the word's own bits, so the encoder writes the word's bits outside the unread ones; a mode
bit that is clear is clear in both words. -/
theorem encode_decode_differs_in_unread (w : Word) :
    (encode (decode w) ^^^ w) &&& ~~~unreadBits (decode w) = 0#16 := by
  cases hop : opcodeOf w with
  | add | and =>
    by_cases hmode : w.getLsbD 5
    · simp only [decode, hop, hmode, if_true, encode, unreadBits, withOpcode_of_opcodeOf hop, place_field,
        place_one_of_getLsbD hmode, ← BitVec.and_or_distrib_left]
      exact differs_in_unread rfl BitVec.and_zero (by decide)
    · simp only [decode, hop, if_neg hmode, encode, unreadBits, withOpcode_of_opcodeOf hop, place_field,
        ← BitVec.and_or_distrib_left]
      exact differs_in_unread rfl (and_place_one_of_not_getLsbD hmode) (by decide)
  | jsr =>
    by_cases hmode : w.getLsbD 11
    · simp only [decode, hop, hmode, if_true, encode, unreadBits, withOpcode_of_opcodeOf hop, place_field,
        place_one_of_getLsbD hmode, ← BitVec.and_or_distrib_left]
      exact differs_in_unread rfl BitVec.and_zero (by decide)
    · simp only [decode, hop, if_neg hmode, encode, unreadBits, withOpcode_of_opcodeOf hop, place_field,
        ← BitVec.and_or_distrib_left]
      exact differs_in_unread rfl (and_place_one_of_not_getLsbD hmode) (by decide)
  | jmp =>
    rw [decode_eq_decodeJump hop, encode_decodeJump, decodeJump_unreadBits, withOpcode_of_opcodeOf hop, place_field,
      ← BitVec.and_or_distrib_left]
    exact differs_in_unread rfl BitVec.and_zero (by decide)
  | trap =>
    rw [decode_of_trap hop, encode_decodeTrap, decodeTrap_unreadBits, withOpcode_of_opcodeOf hop, place_field,
      ← BitVec.and_or_distrib_left]
    exact differs_in_unread rfl BitVec.and_zero (by decide)
  | rti | res =>
    simp only [decode, hop, encode, unreadBits, withOpcode_of_opcodeOf hop, BitVec.ofNat_eq_ofNat, BitVec.or_zero]
    exact differs_in_unread rfl BitVec.and_zero (by decide)
  | not =>
    simp only [decode, hop, encode, unreadBits, withOpcode_of_opcodeOf hop, place_field, ← BitVec.or_assoc,
      ← BitVec.and_or_distrib_left]
    exact differs_in_unread (by rw [BitVec.or_assoc]; rfl) BitVec.and_zero (by decide)
  | _ =>
    simp only [decode, hop, encode, unreadBits, withOpcode_of_opcodeOf hop, place_field, ← BitVec.and_or_distrib_left]
    exact differs_in_unread rfl BitVec.and_zero (by decide)

/-- Settles O53: `decode_xor_unreadBits` for the changed word, `encode_decode_differs_in_unread` for the encoder's. -/
theorem unreadBitsAreIgnored : Obligations.UnreadBitsAreIgnored :=
  ⟨decode_xor_unreadBits, encode_decode_differs_in_unread⟩

/-- Settles O54: each word is closed, so the decoder is run on it. -/
theorem wordsOfTheSpecDecode : Obligations.WordsOfTheSpecDecode := by
  unfold Obligations.WordsOfTheSpecDecode
  decide

end Sys2Proof
end

/-! The keyboard (20_memory.md R44-R46; 80_interfaces.md R260-R263): when `InRead()` answers, what a poll of either kind
leaves in each cell, and that every other read leaves the memory alone. -/
section
namespace Sys2Proof.Machine

theorem inRead_isSome_iff (s : State) : s.inRead.isSome = true ↔ s.inputReady := by
  rw [Option.isSome_iff_ne_none, ne_eq, inRead_eq_none, not_and_or, Bool.not_eq_false]
  rfl

/-- A poll that draws false, or finds nothing to read, clears the status cell. -/
theorem pollWith_of_no_char {draw : Bool} {s : State} (h : draw = false ∨ s.inRead = none) :
    s.pollWith draw = s.memWrite kbsrAddr 0x0000 := by
  obtain hclear | ⟨c, s', hdraw, hread, -⟩ := pollWith_cases draw s
  · exact hclear
  · obtain h | h := h
    · cases hdraw.symm.trans h
    · cases hread.symm.trans h

/-- A poll that draws true and finds a character puts it in the data cell. -/
theorem pollWith_of_char {s s' : State} {c : Word} (h : s.inRead = some (c, s')) :
    s.pollWith true = (s'.memWrite kbsrAddr kbsrReady).memWrite kbdrAddr c := by
  simp only [State.pollWith, h]

theorem noCharPoll_cell {draw : Bool} {s : State} (hwf : Memory.wf s.mem = true) (h : draw = false ∨ s.inRead = none)
    (a : Word) : (s.pollWith draw).cell a = if kbsrAddr = a then 0x0000 else s.cell a := by
  rw [pollWith_of_no_char h, memWrite_cell _ _ _ _ hwf]

theorem charPoll_cell {s s' : State} {c : Word} (hwf : Memory.wf s.mem = true) (h : s.inRead = some (c, s'))
    (a : Word) :
    (s.pollWith true).cell a = if kbdrAddr = a then c else if kbsrAddr = a then kbsrReady else s.cell a := by
  have hmem : s'.mem = s.mem := by rw [inRead_frame h]
  have hcell : s'.cell a = s.cell a := congrArg (Memory.read · a.toNat) hmem
  have hwf' : Memory.wf s'.mem = true := hmem ▸ hwf
  rw [pollWith_of_char h, memWrite_cell _ _ _ _ (memWrite_wf _ _ hwf'), memWrite_cell _ _ _ _ hwf', hcell]

theorem pollWith_cell_of_ne {s : State} (hwf : Memory.wf s.mem = true) (draw : Bool) {a : Word} (hsr : a ≠ kbsrAddr)
    (hdr : a ≠ kbdrAddr) : (s.pollWith draw).cell a = s.cell a := by
  by_cases h : draw = false ∨ s.inRead = none
  · rw [noCharPoll_cell hwf h, if_neg hsr.symm]
  · obtain ⟨hdraw, hread⟩ := not_or.mp h
    obtain ⟨⟨c, s'⟩, hread⟩ := Option.ne_none_iff_exists'.mp hread
    rw [Bool.eq_true_of_not_eq_false hdraw, charPoll_cell hwf hread, if_neg hdr.symm, if_neg hsr.symm]

/-- Away from the keyboard cells, or from another address than KBSR_ADDR, a read leaves the memory alone. -/
theorem memRead_cell {s : State} (hwf : Memory.wf s.mem = true) {ea a : Word}
    (h : (a ≠ kbsrAddr ∧ a ≠ kbdrAddr) ∨ kbsrAddr ≠ ea) : (s.memRead ea).2.cell a = s.cell a := by
  rw [memRead_eq_cell_afterRead]
  by_cases hea : ea = kbsrAddr
  · obtain ⟨hsr, hdr⟩ : a ≠ kbsrAddr ∧ a ≠ kbdrAddr := h.resolve_right (not_not_intro hea.symm)
    rw [Spec.afterRead, if_pos hea]
    exact pollWith_cell_of_ne (s := s.countPoll) hwf _ hsr hdr
  · rw [afterRead_of_ne s hea]

/-- A poll moves the memory and the input alone. -/
theorem pollWith_frame (draw : Bool) (s : State) :
    { s.pollWith draw with mem := s.mem, input := s.input, consumed := s.consumed } = s := by
  obtain h | ⟨c, s', -, hread, h⟩ := pollWith_cases draw s <;> rw [h]
  · rfl
  · rw [inRead_frame hread]; rfl

/-- Settles O7: a read of KBSR_ADDR is the poll of its draw, and a poll clears the status cell (`noCharPoll_cell`) or
takes a character (`charPoll_cell`), the next byte or EofWord. -/
theorem statusReadPollsTheKeyboard : Obligations.StatusReadPollsTheKeyboard := by
  refine ⟨fun s => ⟨Config.pollAnswer s.polls, if_pos rfl⟩, fun draw s hwf => ?_⟩
  have hne : kbsrAddr ≠ kbdrAddr := by decide
  have hother (a : Word) := pollWith_cell_of_ne (a := a) hwf draw
  have hframe := pollWith_frame draw s
  by_cases hno : draw = false ∨ s.inRead = none
  · obtain ⟨havail, hinput, hbyte⟩ : (draw && (!s.input.isEmpty || s.inputEnded)) = false ∧
        (if draw then s.input.tail else s.input) = s.input ∧ (draw && !s.input.isEmpty) = false := by
      obtain rfl | hread := hno
      · exact ⟨rfl, rfl, rfl⟩
      · obtain ⟨hin, hopen⟩ := inRead_eq_none.mp hread
        simp [hin, hopen]
    rw [noCharPoll_cell hwf hno, noCharPoll_cell hwf hno, havail, hinput, hbyte]
    refine ⟨rfl, if_neg hne, hother, ?_, ?_, hframe⟩
    · rw [pollWith_of_no_char hno]; rfl
    · rw [pollWith_of_no_char hno]; rfl
  · obtain ⟨hdraw, hread⟩ := not_or.mp hno
    obtain rfl : draw = true := Bool.eq_true_of_not_eq_false hdraw
    obtain ⟨⟨c, s'⟩, hread⟩ := Option.ne_none_iff_exists'.mp hread
    rw [charPoll_cell hwf hread, charPoll_cell hwf hread, if_neg hne.symm, if_pos rfl, if_pos rfl]
    obtain ⟨b, rest, hin, rfl, -⟩ | ⟨hin, hended, rfl, -⟩ := inRead_cases hread
    · refine ⟨?_, ?_, hother, ?_, ?_, hframe⟩
      · simp [hin, kbsrReady]
      · simp [hin, zextByte]
      · simp [pollWith_of_char (inRead_of_cons hin), hin]
      · simp [pollWith_of_char (inRead_of_cons hin), hin]
    · refine ⟨?_, ?_, hother, ?_, ?_, hframe⟩
      · simp [hended, kbsrReady]
      · simp [hin, hended]
      · simp [pollWith_of_char (inRead_of_ended hin hended), hin]
      · simp [pollWith_of_char (inRead_of_ended hin hended), hin]

end Sys2Proof.Machine
end

/-! What each instruction leaves alone (10_state.md R21-R29; 20_memory.md R52, R55): the routines' bodies move their own
fields only, and so for every field the instructions that may write it are few. -/
section
namespace Sys2Proof.Machine

/-! ### The routines' bodies -/

theorem getcBody_frame (s : State) :
    { s.getcBody with regs := s.regs, cond := s.cond, input := s.input, consumed := s.consumed, flushed := s.flushed,
                      routine := s.routine } = s := by
  obtain ⟨c, s', hread, hbody⟩ | ⟨-, hbody⟩ := getcBody_cases s <;> rw [hbody]
  · rw [inRead_frame hread]; rfl
  · rfl

theorem inBody_frame (s : State) :
    { s.inBody with regs := s.regs, cond := s.cond, input := s.input, consumed := s.consumed, output := s.output,
                    flushed := s.flushed, routine := s.routine } = s := by
  obtain ⟨c, s', hread, hbody⟩ | ⟨-, hbody⟩ := inBody_cases s <;> rw [hbody]
  · rw [inRead_frame hread]; rfl
  · rfl

theorem stringBody_frame (r : Routine) (bytes : List Word → List Byte) (s : State) :
    { s.stringBody r bytes with output := s.output, flushed := s.flushed, routine := s.routine } = s := by
  obtain hbody | hbody := stringBody_cases r bytes s <;> rw [hbody] <;> rfl

@[simp] theorem getcBody_pc (s : State) : s.getcBody.pc = s.pc :=
  (congrArg State.pc (getcBody_frame s) :)

@[simp] theorem getcBody_mem (s : State) : s.getcBody.mem = s.mem :=
  (congrArg State.mem (getcBody_frame s) :)

@[simp] theorem getcBody_output (s : State) : s.getcBody.output = s.output :=
  (congrArg State.output (getcBody_frame s) :)

@[simp] theorem inBody_pc (s : State) : s.inBody.pc = s.pc :=
  (congrArg State.pc (inBody_frame s) :)

@[simp] theorem inBody_mem (s : State) : s.inBody.mem = s.mem :=
  (congrArg State.mem (inBody_frame s) :)

@[simp] theorem stringBody_pc (r : Routine) (bytes : List Word → List Byte) (s : State) :
    (s.stringBody r bytes).pc = s.pc :=
  (congrArg State.pc (stringBody_frame r bytes s) :)

@[simp] theorem stringBody_regs (r : Routine) (bytes : List Word → List Byte) (s : State) :
    (s.stringBody r bytes).regs = s.regs :=
  (congrArg State.regs (stringBody_frame r bytes s) :)

@[simp] theorem stringBody_cond (r : Routine) (bytes : List Word → List Byte) (s : State) :
    (s.stringBody r bytes).cond = s.cond :=
  (congrArg State.cond (stringBody_frame r bytes s) :)

@[simp] theorem stringBody_mem (r : Routine) (bytes : List Word → List Byte) (s : State) :
    (s.stringBody r bytes).mem = s.mem :=
  (congrArg State.mem (stringBody_frame r bytes s) :)

theorem getcBody_reg_of_ne (s : State) {r : Reg} (hr : 0#3 ≠ r) : s.getcBody.reg r = s.reg r := by
  obtain ⟨c, s', hread, hbody⟩ | ⟨-, hbody⟩ := getcBody_cases s <;> rw [hbody]
  · rw [takeChar_reg, if_neg hr, inRead_frame hread]; rfl
  · rfl

theorem inBody_reg_of_ne (s : State) {r : Reg} (hr : 0#3 ≠ r) : s.inBody.reg r = s.reg r := by
  obtain ⟨c, s', hread, hbody⟩ | ⟨-, hbody⟩ := inBody_cases s <;> rw [hbody]
  · rw [takeChar_reg, if_neg hr, inRead_frame hread]; rfl
  · rfl

/-! ### The flags are those of the register written -/

theorem writeDest_flags (s : State) (dr : Reg) (v : Word) :
    (s.writeDest dr v).cond = flagOf ((s.writeDest dr v).reg dr) := by
  rw [writeDest_cond, writeDest_reg, if_pos rfl]

theorem takeChar_flags (s : State) (c : Word) : (s.takeChar c).cond = flagOf ((s.takeChar c).reg 0#3) :=
  writeDest_flags s 0#3 c

theorem getcBody_flags (s : State) :
    s.getcBody.cond = flagOf (s.getcBody.reg 0#3) ∨ (s.getcBody.cond = s.cond ∧ s.getcBody.routine ≠ none) := by
  obtain ⟨c, s', -, hbody⟩ | ⟨-, hbody⟩ := getcBody_cases s <;> rw [hbody]
  · exact .inl (takeChar_flags s' c)
  · exact .inr ⟨rfl, Option.some_ne_none _⟩

theorem inBody_flags (s : State) :
    s.inBody.cond = flagOf (s.inBody.reg 0#3) ∨ (s.inBody.cond = s.cond ∧ s.inBody.routine ≠ none) := by
  obtain ⟨c, s', -, hbody⟩ | ⟨-, hbody⟩ := inBody_cases s <;> rw [hbody]
  · exact .inl (takeChar_flags _ c)
  · exact .inr ⟨rfl, Option.some_ne_none _⟩

/-! ### The instructions, field by field -/

/-- An instruction that is no flag writer leaves COND alone (R28). -/
theorem exec_cond_of_flagReg_none {i : Instr} {s t : State} (h : exec i s = .next t) (hi : Spec.flagReg i = none) :
    t.cond = s.cond := by
  cases i with
  | br cond off => cases h; split <;> rfl
  | sti sr off => cases h; exact memRead_cond s _
  | trapPuts | trapPutsp => cases h; exact stringBody_cond _ _ s
  | addReg | addImm | andReg | andImm | not | ld | ldi | ldr | lea | trapGetc | trapIn => cases hi
  | _ => cases h; rfl

/-- A flag writer sets COND from the register it wrote, unless it is a GETC or IN that holds (R28, D26). -/
theorem exec_cond_of_flagReg_some {i : Instr} {s t : State} {r : Reg} (h : exec i s = .next t)
    (hi : Spec.flagReg i = some r) : t.cond = flagOf (t.reg r) ∨ (t.cond = s.cond ∧ t.routine ≠ none) := by
  cases i with
  | trapGetc => cases h; cases hi; exact getcBody_flags s
  | trapIn => cases h; cases hi; exact inBody_flags (s.out Config.inPrompt)
  | addReg | addImm | andReg | andImm | not | ld | ldi | ldr | lea =>
    cases h; cases hi; exact .inl (writeDest_flags _ _ _)
  | _ => cases hi

/-- Settles O41, by `exec_run`. -/
theorem onlyHaltHaltsAndOnlyAbortsFault : Obligations.OnlyHaltHaltsAndOnlyAbortsFault :=
  fun _ _ _ => exec_run

/-- Settles O42: a flag writer whose cycle ended has not held, so COND is what `exec_cond_of_flagReg_some` says. -/
theorem onlyFlagWritersSetFlags : Obligations.OnlyFlagWritersSetFlags := by
  intro i s t h
  refine ⟨exec_cond_of_flagReg_none h, fun r hr _ hended => ?_⟩
  exact (exec_cond_of_flagReg_some h hr).resolve_right fun hheld => hheld.2 hended

/-- Settles O43: the loads and the routines keep PC by their own lemmas, the other instructions by definition. -/
theorem onlyControlTransfersWritePc : Obligations.OnlyControlTransfersWritePc := by
  intro i s t h hi
  cases i with
  | br | jmp | ret | jsr | jsrr => cases hi
  | ld dr off | ldr dr base off => cases h; exact load_pc s dr _
  | ldi dr off => cases h; exact (load_pc _ dr _).trans (memRead_pc s _)
  | sti sr off => cases h; exact memRead_pc s _
  | trapGetc => cases h; exact getcBody_pc s
  | trapIn => cases h; exact inBody_pc (s.out Config.inPrompt)
  | trapPuts | trapPutsp => cases h; exact stringBody_pc _ _ s
  | _ => cases h; rfl

theorem load_reg_of_ne (s : State) {dr r : Reg} (ea : Word) (hr : dr ≠ r) : (s.load dr ea).reg r = s.reg r := by
  rw [load_reg, if_neg hr]

/-- Settles O44: each way to write a register leaves every other register alone. -/
theorem onlyDestinationRegisterChanges : Obligations.OnlyDestinationRegisterChanges := by
  intro i s t r h hdest
  have hne {dr : Reg} (hdr : Spec.destReg i = some dr) : dr ≠ r := fun e => hdest (e ▸ hdr)
  cases i with
  | addReg | addImm | andReg | andImm | not | lea =>
    cases h; exact (writeDest_reg s _ r _).trans (if_neg (hne rfl))
  | ld dr off | ldr dr base off => cases h; exact load_reg_of_ne s _ (hne rfl)
  | ldi dr off => cases h; exact (load_reg_of_ne _ _ (hne rfl)).trans (memRead_reg s _ r)
  | sti sr off => cases h; exact memRead_reg s _ r
  | jsr | jsrr => cases h; exact link_reg_of_ne s (hne rfl).symm
  | br cond off => cases h; split <;> rfl
  | trapGetc => cases h; exact getcBody_reg_of_ne s (hne rfl)
  | trapIn => cases h; exact inBody_reg_of_ne (s.out Config.inPrompt) (hne rfl)
  | trapPuts | trapPutsp => cases h; simp only [State.reg, stringBody_regs]
  | _ => cases h; rfl

/-! ### The memory -/

theorem cell_congr {s t : State} (h : t.mem = s.mem) (a : Word) : t.cell a = s.cell a :=
  congrArg (Memory.read · a.toNat) h

/-- Settles O45: a store writes its own cell (`memWrite_cell`), a read no cell but a keyboard cell, and that only by a
poll (`memRead_cell`). -/
theorem onlyStoresAndPollsWriteMemory : Obligations.OnlyStoresAndPollsWriteMemory := by
  intro i s t a hwf h hstore hread
  have hne {ea : Word} (hea : Spec.storesTo i s = some ea) : ea ≠ a := fun e => hstore (e ▸ hea)
  have hcell {u : State} (hu : Memory.wf u.mem = true) {ea : Word} (hea : ea ∈ Spec.reads i s) :
      (u.memRead ea).2.cell a = u.cell a :=
    memRead_cell hu (hread.imp_right fun hno e => hno (e ▸ hea))
  cases i with
  | ld | ldr => cases h; exact hcell hwf (List.mem_singleton_self _)
  | ldi dr off =>
    cases h
    exact (hcell (memRead_wf _ hwf) (.tail _ (.head _))).trans (hcell hwf (.head _))
  | st sr off | str sr base off => cases h; rw [memWrite_cell _ _ _ _ hwf, if_neg (hne rfl)]
  | sti sr off =>
    cases h
    rw [memWrite_cell _ _ _ _ (memRead_wf _ hwf), if_neg (hne rfl)]
    exact hcell hwf (List.mem_singleton_self _)
  | br cond off => cases h; split <;> rfl
  | trapGetc => cases h; exact cell_congr (getcBody_mem s) a
  | trapIn => cases h; exact cell_congr (inBody_mem _) a
  | trapPuts | trapPutsp => cases h; exact cell_congr (stringBody_mem _ _ s) a
  | _ => cases h; rfl

/-- Every instruction keeps the canonical form of the memory. -/
theorem exec_wf {i : Instr} {s t : State} (h : exec i s = .next t) (hwf : Memory.wf s.mem = true) :
    Memory.wf t.mem = true := by
  cases i with
  | ld | ldr => cases h; exact memRead_wf _ hwf
  | ldi dr off => cases h; exact memRead_wf _ (memRead_wf _ hwf)
  | st | str => cases h; exact memWrite_wf _ _ hwf
  | sti sr off => cases h; exact memWrite_wf _ _ (memRead_wf _ hwf)
  | br cond off => cases h; split <;> exact hwf
  | trapGetc => cases h; exact (getcBody_mem s).symm ▸ hwf
  | trapIn => cases h; exact (inBody_mem (s.out Config.inPrompt)).symm ▸ hwf
  | trapPuts | trapPutsp => cases h; exact (stringBody_mem _ _ s).symm ▸ hwf
  | _ => cases h; exact hwf

end Sys2Proof.Machine
end

/-! Output and flushes (43_trap_and_system.md R178; 80_interfaces.md R264, R265): a trap routine appends, and at the end
of its cycle flushes; nothing else touches the output, so every step only appends and keeps the invariant of runs. -/
section
namespace Sys2Proof.Machine

/-- What a trap routine does to the output: it appends, and then its cycle ends with a flush, or is unfinished. -/
inductive RoutineEffect (s t : State) : Prop
  | ended : s.output <+: t.output → t.flushed = t.output.length → t.routine = none → RoutineEffect s t
  | unfinished : s.output <+: t.output → t.flushed = s.flushed → t.routine ≠ none → t.run = s.run → RoutineEffect s t

theorem RoutineEffect.output_prefix {s t : State} (h : RoutineEffect s t) : s.output <+: t.output := by
  cases h with
  | ended hpre | unfinished hpre => exact hpre

/-- Once the cycle is over, everything is flushed. -/
theorem RoutineEffect.flushed_of_ended {s t : State} (h : RoutineEffect s t) (ht : t.routine = none) :
    t.flushed = t.output.length := by
  cases h with
  | ended _ hflushed => exact hflushed
  | unfinished _ _ hroutine => exact absurd ht hroutine

/-- Bytes written before the routine's body are part of what it appends. -/
theorem RoutineEffect.of_out {s t : State} {bytes : List Byte} (h : RoutineEffect (s.out bytes) t) :
    RoutineEffect s t := by
  have hout : s.output <+: (s.out bytes).output := List.prefix_append _ _
  cases h with
  | ended hpre hflushed hroutine => exact .ended (hout.trans hpre) hflushed hroutine
  | unfinished hpre hflushed hroutine hrun => exact .unfinished (hout.trans hpre) hflushed hroutine hrun

theorem getcBody_effect (s : State) : RoutineEffect s s.getcBody := by
  have hpre : s.output <+: s.getcBody.output := (getcBody_output s).symm ▸ List.prefix_rfl
  obtain ⟨c, s', hread, hbody⟩ | ⟨-, hbody⟩ := getcBody_cases s <;> rw [hbody] at hpre ⊢
  · exact .ended hpre rfl rfl
  · exact .unfinished hpre rfl (Option.some_ne_none _) rfl

theorem inBody_effect (s : State) : RoutineEffect s s.inBody := by
  obtain ⟨c, s', hread, hbody⟩ | ⟨-, hbody⟩ := inBody_cases s <;> rw [hbody]
  · rw [inRead_frame hread]
    exact .ended (List.prefix_append _ _) rfl rfl
  · exact .unfinished List.prefix_rfl rfl (Option.some_ne_none _) rfl

theorem stringBody_effect (r : Routine) (bytes : List Word → List Byte) (s : State) :
    RoutineEffect s (s.stringBody r bytes) := by
  obtain hbody | hbody := stringBody_cases r bytes s <;> rw [hbody]
  · exact .ended (List.prefix_append _ _) rfl rfl
  · exact .unfinished (List.prefix_append _ _) rfl (Option.some_ne_none _) rfl

theorem exec_effect {i : Instr} {s t : State} (h : exec i s = .next t) (hi : Spec.isTrapRoutine i = true) :
    RoutineEffect s t := by
  cases i with
  | trapGetc => cases h; exact getcBody_effect s
  | trapOut | trapHalt => cases h; exact .ended (List.prefix_append _ _) rfl rfl
  | trapIn => cases h; exact (inBody_effect (s.out Config.inPrompt)).of_out
  | trapPuts | trapPutsp => cases h; exact stringBody_effect _ _ s
  | _ => cases hi

/-- Outside the six routines no instruction writes, flushes, or enters a routine. -/
theorem exec_silent {i : Instr} {s t : State} (h : exec i s = .next t) (hi : Spec.isTrapRoutine i = false) :
    t.output = s.output ∧ t.flushed = s.flushed ∧ t.routine = s.routine := by
  cases i with
  | trapGetc | trapOut | trapPuts | trapIn | trapPutsp | trapHalt => cases hi
  | br cond off => cases h; split <;> exact ⟨rfl, rfl, rfl⟩
  | ld | ldr => cases h; exact ⟨load_output _ _ _, load_flushed _ _ _, load_routine _ _ _⟩
  | ldi =>
    cases h
    simp only [load_output, load_flushed, load_routine, memRead_output, memRead_flushed, memRead_routine, and_self]
  | sti => cases h; exact ⟨memRead_output _ _, memRead_flushed _ _, memRead_routine _ _⟩
  | _ => cases h; exact ⟨rfl, rfl, rfl⟩

/-- All that a routine can do when it goes on: its body (R88; log 4, log 6). -/
theorem resume_cases {r : Routine} {s t : State} (h : resume r s = .next t) :
    t = s.getcBody ∨ t = s.inBody ∨ ∃ bytes, t = s.stringBody r bytes := by
  cases r <;> simp only [resume] at h
  case getc => split at h <;> cases h; exact .inl rfl
  case inp => split at h <;> cases h; exact .inr (.inl rfl)
  case puts | putsp => cases h; exact .inr (.inr ⟨_, rfl⟩)

theorem resume_effect {r : Routine} {s t : State} (h : resume r s = .next t) : RoutineEffect s t := by
  obtain rfl | rfl | ⟨bytes, rfl⟩ := resume_cases h
  · exact getcBody_effect s
  · exact inBody_effect s
  · exact stringBody_effect r bytes s

theorem resume_run {r : Routine} {s t : State} (h : resume r s = .next t) : t.run = s.run := by
  obtain rfl | rfl | ⟨bytes, rfl⟩ := resume_cases h
  · exact getcBody_run s
  · exact inBody_run s
  · exact stringBody_run r bytes s

theorem resume_mem {r : Routine} {s t : State} (h : resume r s = .next t) : t.mem = s.mem := by
  obtain rfl | rfl | ⟨bytes, rfl⟩ := resume_cases h
  · exact getcBody_mem s
  · exact inBody_mem s
  · exact stringBody_mem r bytes s

theorem exec_output_prefix {i : Instr} {s t : State} (h : exec i s = .next t) : s.output <+: t.output := by
  cases hi : Spec.isTrapRoutine i with
  | true => exact (exec_effect h hi).output_prefix
  | false => exact (exec_silent h hi).1 ▸ List.prefix_rfl

/-- A step only appends to the output. -/
theorem step_output_prefix {s t : State} (h : step s = .next t) : s.output <+: t.output := by
  obtain ⟨-, ⟨r, -, h⟩ | ⟨-, h⟩⟩ := step_cases h
  · exact (resume_effect h).output_prefix
  · exact fetch_output s ▸ exec_output_prefix h

/-- Settles O48: GETC reads and writes nothing, the other silent instructions are `exec_silent`'s. -/
theorem onlyOutputTrapsWriteOutput : Obligations.OnlyOutputTrapsWriteOutput := by
  refine ⟨fun i s t h hi => ?_, fun s t => step_output_prefix⟩
  cases i with
  | trapGetc => cases h; exact getcBody_output s
  | trapOut | trapPuts | trapIn | trapPutsp | trapHalt => cases hi
  | _ => exact (exec_silent h rfl).1

/-- Settles O50, by `exec_effect`. -/
theorem everyTrapFlushes : Obligations.EveryTrapFlushes :=
  fun _ _ _ hi h => (exec_effect h hi).flushed_of_ended

/-! ### The invariant of runs -/

theorem RoutineEffect.flushed_le {s t : State} (h : RoutineEffect s t) (hs : s.flushed ≤ s.output.length) :
    s.flushed ≤ t.flushed ∧ t.flushed ≤ t.output.length := by
  have hlen := h.output_prefix.length_le
  cases h with
  | ended _ hflushed | unfinished _ hflushed => omega

/-- A COND that is a legal one or the flag of a value is legal. -/
theorem condLegal_of_flagOf {s t : State} (hs : s.Inv) (h : t.cond = s.cond ∨ ∃ v, t.cond = flagOf v) :
    t.cond = 0x0000 ∨ t.cond = flagP ∨ t.cond = flagZ ∨ t.cond = flagN := by
  obtain h | ⟨v, h⟩ := h <;> rw [h]
  · exact hs.condLegal
  · exact .inr (flagOf_legal v)

theorem exec_cond {i : Instr} {s t : State} (h : exec i s = .next t) : t.cond = s.cond ∨ ∃ v, t.cond = flagOf v := by
  cases hi : Spec.flagReg i with
  | none => exact .inl (exec_cond_of_flagReg_none h hi)
  | some r =>
    obtain hflags | ⟨hkept, -⟩ := exec_cond_of_flagReg_some h hi
    · exact .inr ⟨_, hflags⟩
    · exact .inl hkept

theorem resume_cond {r : Routine} {s t : State} (h : resume r s = .next t) :
    t.cond = s.cond ∨ ∃ v, t.cond = flagOf v := by
  obtain rfl | rfl | ⟨bytes, rfl⟩ := resume_cases h
  · exact (getcBody_flags s).symm.imp And.left fun hflags => ⟨_, hflags⟩
  · exact (inBody_flags s).symm.imp And.left fun hflags => ⟨_, hflags⟩
  · exact .inl (stringBody_cond r bytes s)

theorem fetch_inv {s : State} (hs : s.Inv) : s.fetch.Inv where
  memWf := memRead_wf s.pc hs.memWf
  condLegal := (fetch_cond s).symm ▸ hs.condLegal
  flushedLe := by rw [fetch_flushed, fetch_output]; exact hs.flushedLe
  flushedBetweenCycles := by rw [fetch_flushed, fetch_output, fetch_routine]; exact hs.flushedBetweenCycles
  routineRuns := by rw [fetch_run, fetch_routine]; exact hs.routineRuns

/-- An instruction at the start of its cycle keeps the invariant: it is silent, or a trap routine that begins. -/
theorem exec_inv {i : Instr} {s t : State} (hs : s.Inv) (hfetched : s.atFetch) (h : exec i s = .next t) : t.Inv := by
  obtain ⟨hrun, hroutine⟩ := hfetched
  have hcond := condLegal_of_flagOf hs (exec_cond h)
  cases hi : Spec.isTrapRoutine i with
  | true =>
    have heffect := exec_effect h hi
    refine ⟨exec_wf h hs.memWf, hcond, (heffect.flushed_le hs.flushedLe).2, heffect.flushed_of_ended, fun hstop => ?_⟩
    cases heffect with
    | ended _ _ hended => exact hended
    | unfinished _ _ _ hkept => exact absurd (hkept.trans hrun) hstop
  | false =>
    obtain ⟨houtput, hflushed, hkept⟩ := exec_silent h hi
    have hall : t.flushed = t.output.length := by rw [hflushed, houtput]; exact hs.flushedBetweenCycles hroutine
    exact ⟨exec_wf h hs.memWf, hcond, hall.le, fun _ => hall, fun _ => hkept.trans hroutine⟩

/-- A routine that goes on keeps the invariant: the machine runs on. -/
theorem resume_inv {r : Routine} {s t : State} (hs : s.Inv) (hrun : s.run = .running) (h : resume r s = .next t) :
    t.Inv where
  memWf := (resume_mem h).symm ▸ hs.memWf
  condLegal := condLegal_of_flagOf hs (resume_cond h)
  flushedLe := ((resume_effect h).flushed_le hs.flushedLe).2
  flushedBetweenCycles := (resume_effect h).flushed_of_ended
  routineRuns := fun hstop => absurd ((resume_run h).trans hrun) hstop

/-- Settles O58: a step goes on with a routine (`resume_inv`), or executes from the fetched state (`exec_inv`). -/
theorem stepKeepsTheInvariant : Obligations.StepKeepsTheInvariant := by
  intro s t hs h
  obtain ⟨hrun, ⟨r, -, h⟩ | ⟨hroutine, h⟩⟩ := step_cases h
  · exact resume_inv hs hrun h
  · exact exec_inv (fetch_inv hs) ⟨(fetch_run s).trans hrun, (fetch_routine s).trans hroutine⟩ h

/-- Settles O57: nothing is listed, written or flushed at reset. -/
theorem resetMeetsTheInvariant : Obligations.ResetMeetsTheInvariant :=
  ⟨reset_mem_wf, .inl rfl, le_rfl, fun _ => rfl, fun _ => rfl⟩

theorem loadImages_wf {s : State} (images : List Image) (h : Memory.wf s.mem = true) :
    Memory.wf (s.loadImages images).mem = true := by
  induction images generalizing s with
  | nil => exact h
  | cons i rest ih => exact ih (loadWords_wf i.origin i.words h)

/-- Only the memory and the input tell a launched state from reset. -/
theorem launch_inv {images : List Image} {input : List Byte} {ended : Bool} {s : State}
    (h : launch images input ended = some s) : s.Inv := by
  obtain ⟨-, rfl⟩ := launch_eq_some h
  have hframe := loadImages_frame State.reset images State.reset.mem
  have hcond : (State.reset.loadImages images).cond = State.reset.cond := (congrArg State.cond hframe :)
  have houtput : (State.reset.loadImages images).output = State.reset.output := (congrArg State.output hframe :)
  have hflushed : (State.reset.loadImages images).flushed = State.reset.flushed := (congrArg State.flushed hframe :)
  have hroutine : (State.reset.loadImages images).routine = State.reset.routine := (congrArg State.routine hframe :)
  have hall : (State.reset.loadImages images).flushed = (State.reset.loadImages images).output.length := by
    rw [hflushed, houtput]; rfl
  exact ⟨loadImages_wf images reset_mem_wf, .inl hcond, hall.le, fun _ => hall, fun _ => hroutine⟩

theorem deliver_inv {s : State} (hs : s.Inv) (b : Byte) : (s.deliver b).Inv := by
  unfold State.deliver
  split
  case isTrue => exact hs
  case isFalse => exact ⟨hs.memWf, hs.condLegal, hs.flushedLe, hs.flushedBetweenCycles, hs.routineRuns⟩

theorem endInput_inv {s : State} (hs : s.Inv) : s.endInput.Inv :=
  ⟨hs.memWf, hs.condLegal, hs.flushedLe, hs.flushedBetweenCycles, hs.routineRuns⟩

/-- Settles O59, by induction over the events of a run. -/
theorem reachableStatesMeetTheInvariant : Obligations.ReachableStatesMeetTheInvariant := by
  intro s hs
  refine reachable_induction hs (fun _ _ _ _ => launch_inv) fun u v hu event => ?_
  cases event with
  | stepped h => exact stepKeepsTheInvariant u v hu h
  | delivered b => exact deliver_inv hu b
  | inputEnded => exact endInput_inv hu

/-! ### The host's stop -/

/-- What is flushed stays flushed. -/
theorem step_flushed_le {s t : State} (hs : s.Inv) (h : step s = .next t) : s.flushed ≤ t.flushed := by
  obtain ⟨-, ⟨r, -, h⟩ | ⟨-, h⟩⟩ := step_cases h
  · exact ((resume_effect h).flushed_le hs.flushedLe).1
  · rw [← fetch_flushed s]
    cases hi : Spec.isTrapRoutine (decode s.fetch.ir) with
    | true => exact ((exec_effect h hi).flushed_le (fetch_inv hs).flushedLe).1
    | false => exact (exec_silent h hi).2.1.ge

/-- Settles O49: what was flushed before the step and what the stop shows are both prefixes of what is produced, and the
first is the shorter. -/
theorem flushedOutputStaysObservable : Obligations.FlushedOutputStaysObservable := by
  intro s t o consumed hs h hstop hlost
  obtain ⟨produced, hpoint, ho⟩ := hstop
  have hflushed : s.output.take s.flushed <+: produced :=
    (List.take_prefix _ _).trans ((step_output_prefix h).trans hpoint.output_prefix)
  refine List.prefix_of_prefix_length_le hflushed ho ?_
  calc (s.output.take s.flushed).length
    _ ≤ s.flushed := List.length_take_le _ _
    _ ≤ t.flushed := step_flushed_le hs h
    _ ≤ o.length := hlost

/-- A stop of a run that steps to `t` has produced no more than the cycle will have written. -/
theorem StopPoint.prefix_of_step {s t : State} {produced : List Byte} {consumed : Nat}
    (hpoint : StopPoint s produced consumed) (h : step s = .next t) : produced <+: t.output := by
  cases hpoint with
  | between => exact step_output_prefix h
  | inside h' _ hpre => cases h.symm.trans h'; exact hpre

/-- A stop of a run that holds is between two steps. -/
theorem StopPoint.eq_of_hold {s : State} {produced : List Byte} {consumed : Nat}
    (hpoint : StopPoint s produced consumed) (h : step s = .fault .hold) : produced = s.output := by
  cases hpoint with
  | between => rfl
  | inside h' => cases h.symm.trans h'

/-- Only a running machine holds. -/
theorem running_of_hold {s : State} (h : step s = .fault .hold) : s.run = .running := by
  cases hrun : s.run with
  | running => rfl
  | halted => cases (step_of_halted hrun).symm.trans h
  | faulted a => cases (step_of_faulted hrun).symm.trans h

/-- Settles O60: the moments of a stop are those of `StopPoint`; the latest shows all that the cycle writes. -/
theorem stopShowsAnyPrefix : Obligations.StopShowsAnyPrefix := by
  intro s
  refine ⟨fun hrun o consumed => ?_, fun t o h => ⟨?_, fun ho => ?_⟩, fun h o => ⟨?_, fun ho => ?_⟩⟩
  · rintro ⟨produced, hpoint, -⟩
    exact hrun hpoint.isRunning
  · rintro ⟨consumed, produced, hpoint, ho⟩
    exact ho.trans (hpoint.prefix_of_step h)
  · have hpoint : StopPoint s t.output t.consumed :=
      .inside h (step_output_prefix h) List.prefix_rfl (step_consumed_le h) le_rfl fun _ hlt => absurd hlt (lt_irrefl _)
    exact ⟨t.consumed, t.output, hpoint, ho⟩
  · rintro ⟨consumed, produced, hpoint, ho⟩
    exact hpoint.eq_of_hold h ▸ ho
  · exact ⟨s.consumed, s.output, .between (running_of_hold h), ho⟩

end Sys2Proof.Machine
end

/-! Strings (43_trap_and_system.md R173, R175): the words PUTS and PUTSP read up to the first zero word or for a whole
lap, the bytes they write of them, and the laps that follow. -/
section
namespace Sys2Proof.Machine

/-! ### The words of a string -/

theorem add_ofNat_succ (a : Word) (n : Nat) : a + 1 + BitVec.ofNat 16 n = a + BitVec.ofNat 16 (n + 1) := by
  rw [BitVec.ofNat_add, BitVec.add_assoc, BitVec.add_comm 1]
  rfl

/-- Past `n` nonzero words a string goes on with what stands after them. -/
theorem stringWords_add {s : State} {a : Word} {n : Nat} (h : ∀ k, k < n → s.cell (a + BitVec.ofNat 16 k) ≠ 0)
    (m : Nat) :
    stringWords s a (m + n) =
      (List.range n).map (fun k => s.cell (a + BitVec.ofNat 16 k)) ++ stringWords s (a + BitVec.ofNat 16 n) m := by
  induction n generalizing a with
  | zero => simp
  | succ n ih =>
    have hfirst : s.cell a ≠ 0 := by simpa using h 0 (Nat.succ_pos n)
    have hrest := ih (a := a + 1) fun k hk => add_ofNat_succ a k ▸ h (k + 1) (Nat.succ_lt_succ hk)
    simp only [add_ofNat_succ] at hrest
    rw [← Nat.add_assoc, stringWords, if_neg hfirst, hrest, List.range_succ_eq_map]
    simp [Function.comp_def]

theorem stringWords_of_isString {s : State} {n : Nat} (h : Spec.IsString s n) :
    stringWords s (s.reg 0#3) lap = (List.range n).map (Spec.stringWord s) := by
  obtain ⟨hn, hwords, hend⟩ := h
  have hlap : lap = (65536 - 1 - n) + 1 + n := by unfold lap; omega
  have hstop : stringWords s (s.reg 0#3 + BitVec.ofNat 16 n) (65536 - 1 - n + 1) = [] := if_pos hend
  rw [hlap, stringWords_add hwords, hstop, List.append_nil]
  rfl

theorem stringWords_of_no_zero {s : State} (h : ∀ a, s.cell a ≠ 0) :
    stringWords s (s.reg 0#3) lap = (List.range 65536).map (Spec.stringWord s) := by
  have hlap : lap = 0 + 65536 := rfl
  rw [hlap, stringWords_add fun _ _ => h _, stringWords, List.append_nil]
  rfl

theorem lowByte_eq_setWidth (w : Word) : lowByte w = w.setWidth 8 :=
  (BitVec.setWidth_eq_extractLsb' (by decide)).symm

theorem highByte_eq_ofNat (w : Word) : highByte w = BitVec.ofNat 8 (w.toNat / 256) := by
  apply BitVec.eq_of_toNat_eq
  rw [highByte, BitVec.extractLsb'_toNat, BitVec.toNat_ofNat, Nat.shiftRight_eq_div_pow]

theorem highByte_eq_zero_iff (w : Word) : highByte w = 0 ↔ w.toNat / 256 = 0 := by
  have hlt : w.toNat < 65536 := w.isLt
  rw [highByte_eq_ofNat, ← BitVec.toNat_inj, BitVec.toNat_ofNat]
  change w.toNat / 256 % 256 = 0 ↔ _
  omega

theorem putsBytes_stringWords (s : State) (n : Nat) :
    putsBytes ((List.range n).map (Spec.stringWord s)) = Spec.putsOutput s n := by
  simp only [putsBytes, Spec.putsOutput, List.map_map, Function.comp_def, lowByte_eq_setWidth]

theorem putspBytes_stringWords (s : State) (n : Nat) :
    putspBytes ((List.range n).map (Spec.stringWord s)) = Spec.putspOutput s n := by
  simp only [putspBytes, Spec.putspOutput, List.flatMap_map, highByte_eq_zero_iff, lowByte_eq_setWidth]
  simp only [highByte_eq_ofNat]

/-- A string that ends is written, and the routine ends. -/
theorem stringBody_of_isString {s : State} {n : Nat} (h : Spec.IsString s n) (r : Routine)
    (bytes : List Word → List Byte) :
    s.stringBody r bytes = (s.out (bytes ((List.range n).map (Spec.stringWord s)))).endRoutine := by
  have hlt : n < lap := h.1
  rw [State.stringBody, stringWords_of_isString h, List.length_map, List.length_range, if_pos hlt]

/-- With no zero word a whole lap is written, and the routine stays. -/
theorem stringBody_of_no_zero {s : State} (h : ∀ a, s.cell a ≠ 0) (r : Routine) (bytes : List Word → List Byte) :
    s.stringBody r bytes = (s.out (bytes ((List.range 65536).map (Spec.stringWord s)))).setRoutine (some r) := by
  have hlap : ¬ 65536 < lap := Nat.lt_irrefl 65536
  rw [State.stringBody, stringWords_of_no_zero h, List.length_map, List.length_range, if_neg hlap]

theorem exec_trapPuts (s : State) : exec .trapPuts s = .next (s.stringBody .puts putsBytes) := rfl

theorem exec_trapPutsp (s : State) : exec .trapPutsp s = .next (s.stringBody .putsp putspBytes) := rfl

/-- Settles O28: the string's words by `stringBody_of_isString`, their bytes by `putsBytes_stringWords`. -/
theorem putsWritesOneCharacterPerWord : Obligations.PutsWritesOneCharacterPerWord := by
  refine ⟨fun w hop hvec => ?_, fun s n hs => ?_⟩
  · rw [decode_of_trap hop, hvec]; decide
  · rw [exec_trapPuts, stringBody_of_isString hs, putsBytes_stringWords]
    exact ⟨_, rfl, out_endRoutine_endsTrap s _, out_endRoutine_keepsRegsAndInput s _⟩

/-- Settles O30: the string's words by `stringBody_of_isString`, their bytes by `putspBytes_stringWords`. -/
theorem putspWritesTwoCharactersPerWord : Obligations.PutspWritesTwoCharactersPerWord := by
  refine ⟨fun w hop hvec => ?_, fun s n hs => ?_⟩
  · rw [decode_of_trap hop, hvec]; decide
  · rw [exec_trapPutsp, stringBody_of_isString hs, putspBytes_stringWords]
    exact ⟨_, rfl, out_endRoutine_endsTrap s _, out_endRoutine_keepsRegsAndInput s _⟩

/-! ### The step of a machine in a routine -/

theorem step_of_routine {s : State} {r : Routine} (hrun : s.run = .running) (hr : s.routine = some r) :
    step s = resume r s := by
  simp only [step, hrun, hr]

theorem resume_of_string {r : Routine} (hr : r = .puts ∨ r = .putsp) (s : State) :
    ∃ bytes, resume r s = .next (s.stringBody r bytes) := by
  obtain rfl | rfl := hr
  · exact ⟨putsBytes, rfl⟩
  · exact ⟨putspBytes, rfl⟩

/-- A lap of an endless string leads back to a machine that is in the same routine over the same memory. -/
theorem run_of_no_zero {r : Routine} (hr : r = .puts ∨ r = .putsp) {s : State} (h : ∀ a, s.cell a ≠ 0)
    (hrun : s.run = .running) (hroutine : s.routine = some r) (n : Nat) :
    ∃ t, Sys2Proof.core.run n s = .next t ∧ t.run = .running ∧ t.routine = some r := by
  induction n generalizing s with
  | zero => exact ⟨s, rfl, hrun, hroutine⟩
  | succ n ih =>
    obtain ⟨bytes, hresume⟩ := resume_of_string hr s
    have hstep := (step_of_routine hrun hroutine).trans hresume
    rw [core_run_of_step hstep, stringBody_of_no_zero h]
    exact ih h hrun rfl

/-- Settles O34: one lap by `stringBody_of_no_zero`, any number of them by `run_of_no_zero`. -/
theorem endlessStringNeverEnds : Obligations.EndlessStringNeverEnds := by
  intro s h
  refine ⟨?_, ?_, fun r hr hrun hroutine => run_of_no_zero hr h hrun hroutine⟩
  · rw [exec_trapPuts, stringBody_of_no_zero h, putsBytes_stringWords]; rfl
  · rw [exec_trapPutsp, stringBody_of_no_zero h, putspBytes_stringWords]; rfl

end Sys2Proof.Machine
end

/-! Characters read by a trap (43_trap_and_system.md R171, R174; 35_execution_cycle.md R88): GETC and IN complete with
the character `InRead()` answers, hold while it does not, and after the host's move end as they would have at once. -/
section
namespace Sys2Proof.Machine

theorem exec_trapGetc (s : State) : exec .trapGetc s = .next s.getcBody := rfl

theorem exec_trapIn (s : State) : exec .trapIn s = .next (s.out Config.inPrompt).inBody := rfl

theorem getcBody_of_char {s s' : State} {c : Word} (h : s.inRead = some (c, s')) : s.getcBody = s'.takeChar c := by
  simp only [State.getcBody, h]

theorem getcBody_of_wait {s : State} (h : s.inRead = none) : s.getcBody = s.setRoutine (some .getc) := by
  simp only [State.getcBody, h]

theorem inBody_of_char {s s' : State} {c : Word} (h : s.inRead = some (c, s')) :
    s.inBody = (s'.out [lowByte c]).takeChar c := by
  simp only [State.inBody, h]

theorem inBody_of_wait {s : State} (h : s.inRead = none) : s.inBody = s.setRoutine (some .inp) := by
  simp only [State.inBody, h]

/-- `InRead()` does not look at the output. -/
theorem inRead_out_of_char {s s' : State} {c : Word} (h : s.inRead = some (c, s')) (bytes : List Byte) :
    (s.out bytes).inRead = some (c, s'.out bytes) := by
  obtain ⟨b, rest, hin, rfl, rfl⟩ | ⟨hin, hended, rfl, hs'⟩ := inRead_cases h
  · exact inRead_of_cons (s := s.out bytes) hin
  · exact hs' ▸ inRead_of_ended (s := s.out bytes) hin hended

/-- Nor does it look at the routine. -/
theorem inRead_setRoutine_of_char {s s' : State} {c : Word} (h : s.inRead = some (c, s')) (r : Option Routine) :
    (s.setRoutine r).inRead = some (c, s'.setRoutine r) := by
  obtain ⟨b, rest, hin, rfl, rfl⟩ | ⟨hin, hended, rfl, hs'⟩ := inRead_cases h
  · exact inRead_of_cons (s := s.setRoutine r) hin
  · exact hs' ▸ inRead_of_ended (s := s.setRoutine r) hin hended

/-! ### A character is there -/

/-- A character taken from `u` is in R0 with its flags, as seen from any state with the registers of `u`. -/
theorem takeChar_takesChar {s u : State} (h : ∀ r, u.reg r = s.reg r) (c : Word) :
    Spec.TakesChar s (u.takeChar c) c := by
  refine ⟨?_, fun r hr => ?_, ?_⟩
  · rw [takeChar_reg, if_pos rfl]
  · rw [takeChar_reg, if_neg hr.symm, h]
  · rw [takeChar_cond, flagOf_eq_of_toNat]

theorem getc_completes {s s' : State} {c : Word} (h : s.inRead = some (c, s')) :
    exec .trapGetc s = .next (s'.takeChar c) ∧ Spec.TakesChar s (s'.takeChar c) c ∧
      Spec.EndsTrap s (s'.takeChar c) [] := by
  refine ⟨by rw [exec_trapGetc, getcBody_of_char h], ?_⟩
  rw [inRead_frame h]
  exact ⟨takeChar_takesChar (fun _ => rfl) c, (List.append_nil _).symm, rfl, rfl, rfl⟩

theorem in_completes {s s' : State} {c : Word} (h : s.inRead = some (c, s')) :
    ∃ t, exec .trapIn s = .next t ∧ t.input = s'.input ∧ t.consumed = s'.consumed ∧ Spec.TakesChar s t c ∧
      Spec.EndsTrap s t (Config.inPrompt ++ [lowByte c]) := by
  rw [exec_trapIn, inBody_of_char (inRead_out_of_char h _)]
  refine ⟨_, rfl, rfl, rfl, ?_⟩
  rw [inRead_frame h]
  exact ⟨takeChar_takesChar (fun _ => rfl) c, List.append_assoc _ _ _, rfl, rfl, rfl⟩

theorem lowByte_zextByte (b : Byte) : lowByte (zextByte b) = b := by
  rw [lowByte_eq_setWidth, zextByte, BitVec.setWidth_setWidth_of_le _ (by decide), BitVec.setWidth_eq]

/-- Settles O26, by `getc_completes` for the next byte and for the end of the stream. -/
theorem getcReadsOneCharacter : Obligations.GetcReadsOneCharacter := by
  refine ⟨fun w hop hvec => ?_, fun s b rest hin => ?_, fun s hin hended => ?_⟩
  · rw [decode_of_trap hop, hvec]; decide
  · obtain ⟨hexec, htakes, hends⟩ := getc_completes (inRead_of_cons hin)
    exact ⟨_, hexec, htakes, rfl, rfl, hends⟩
  · obtain ⟨hexec, htakes, hends⟩ := getc_completes (inRead_of_ended hin hended)
    exact ⟨_, hexec, htakes, hin, rfl, hends⟩

/-- Settles O29, by `in_completes` for the next byte and for the end of the stream. -/
theorem inPromptsReadsAndEchoes : Obligations.InPromptsReadsAndEchoes := by
  refine ⟨fun w hop hvec => ?_, fun s b rest hin => ?_, fun s hin hended => ?_⟩
  · rw [decode_of_trap hop, hvec]; decide
  · obtain ⟨t, hexec, hinput, hconsumed, htakes, hends⟩ := in_completes (inRead_of_cons hin)
    exact ⟨t, hexec, htakes, hinput, hconsumed, lowByte_zextByte b ▸ hends⟩
  · obtain ⟨t, hexec, hinput, hconsumed, htakes, hends⟩ := in_completes (inRead_of_ended hin hended)
    exact ⟨t, hexec, htakes, hinput.trans hin, hconsumed, lowByte_eq_setWidth Config.eofWord ▸ hends⟩

/-! ### The wait -/

theorem step_of_wait {s : State} {r : Routine} (hr : r = .getc ∨ r = .inp) (hrun : s.run = .running)
    (hread : s.inRead = none) : step (s.setRoutine (some r)) = .fault .hold := by
  have hwait : (s.setRoutine (some r)).inRead = none := inRead_eq_none.mpr (inRead_eq_none (s := s).mp hread)
  rw [step_of_routine (s := s.setRoutine (some r)) hrun rfl]
  obtain rfl | rfl := hr <;> rw [resume, hwait] <;> rfl

theorem resume_getc_of_ready {s : State} (h : s.inputReady) : resume .getc s = .next s.getcBody :=
  if_pos ((inRead_isSome_iff s).mpr h)

theorem resume_inp_of_ready {s : State} (h : s.inputReady) : resume .inp s = .next s.inBody :=
  if_pos ((inRead_isSome_iff s).mpr h)

theorem inRead_of_ready {s : State} (h : s.inputReady) : ∃ c s', s.inRead = some (c, s') := by
  obtain ⟨⟨c, s'⟩, hread⟩ := Option.isSome_iff_exists.mp ((inRead_isSome_iff s).mpr h)
  exact ⟨c, s', hread⟩

/-- A read that can be answered ends the routine, so which routine it was in does not show. -/
theorem getcBody_setRoutine {s : State} (h : s.inputReady) (r : Option Routine) :
    (s.setRoutine r).getcBody = s.getcBody := by
  obtain ⟨c, s', hread⟩ := inRead_of_ready h
  rw [getcBody_of_char (inRead_setRoutine_of_char hread r), getcBody_of_char hread]
  rfl

theorem inBody_setRoutine {s : State} (h : s.inputReady) (r : Option Routine) :
    (s.setRoutine r).inBody = s.inBody := by
  obtain ⟨c, s', hread⟩ := inRead_of_ready h
  rw [inBody_of_char (inRead_setRoutine_of_char hread r), inBody_of_char hread]
  rfl

theorem step_getc_of_ready {s : State} (hrun : s.run = .running) (hready : s.inputReady) :
    step (s.setRoutine (some .getc)) = .next s.getcBody := by
  rw [step_of_routine (s := s.setRoutine (some .getc)) hrun rfl,
    resume_getc_of_ready (s := s.setRoutine (some .getc)) hready, getcBody_setRoutine hready]

theorem step_inp_of_ready {s : State} (hrun : s.run = .running) (hready : s.inputReady) :
    step (s.setRoutine (some .inp)) = .next s.inBody := by
  rw [step_of_routine (s := s.setRoutine (some .inp)) hrun rfl,
    resume_inp_of_ready (s := s.setRoutine (some .inp)) hready, inBody_setRoutine hready]

theorem deliver_run (s : State) (b : Byte) : (s.deliver b).run = s.run := by
  unfold State.deliver
  split <;> rfl

theorem deliver_setRoutine (s : State) (r : Option Routine) (b : Byte) :
    (s.setRoutine r).deliver b = (s.deliver b).setRoutine r := by
  unfold State.deliver
  rw [setRoutine_inputEnded]
  split <;> rfl

theorem deliver_out (s : State) (bytes : List Byte) (b : Byte) :
    (s.out bytes).deliver b = (s.deliver b).out bytes := by
  unfold State.deliver
  rw [out_inputEnded]
  split <;> rfl

theorem deliver_of_open {s : State} (h : s.inputEnded = false) (b : Byte) :
    s.deliver b = { s with input := s.input ++ [b] } := by
  rw [State.deliver, h, if_neg Bool.false_ne_true]

theorem deliver_ready {s : State} (h : s.inputEnded = false) (b : Byte) : (s.deliver b).inputReady := by
  rw [deliver_of_open h]
  exact .inl (List.append_ne_nil_of_right_ne_nil _ (List.cons_ne_nil b []))

/-- Settles O35: `step_of_wait` for the hold; after the host's move the input is ready, and the trap begun before goes
on as the trap begun then would (`step_getc_of_ready`, `step_inp_of_ready`). -/
theorem holdWaitsForInput : Obligations.HoldWaitsForInput := by
  intro s hrun hin hopen
  have hread : s.inRead = none := inRead_eq_none.mpr ⟨hin, hopen⟩
  have hdeliver (b : Byte) := deliver_ready hopen b
  refine ⟨⟨s.setRoutine (some .getc), ?_, rfl, step_of_wait (.inl rfl) hrun hread, fun b => ?_, ?_⟩,
    (s.out Config.inPrompt).setRoutine (some .inp), ?_, rfl, ?_, fun b => ?_, ?_⟩
  · rw [exec_trapGetc, getcBody_of_wait hread]
  · rw [deliver_setRoutine, exec_trapGetc]
    exact step_getc_of_ready ((deliver_run s b).trans hrun) (hdeliver b)
  · exact step_getc_of_ready (s := s.endInput) hrun (.inr rfl)
  · rw [exec_trapIn, inBody_of_wait (s := s.out _) (inRead_eq_none.mpr ⟨hin, hopen⟩)]
  · exact step_of_wait (s := s.out _) (.inr rfl) hrun (inRead_eq_none.mpr ⟨hin, hopen⟩)
  · rw [deliver_setRoutine, deliver_out, exec_trapIn]
    exact step_inp_of_ready (s := (s.deliver b).out _) ((deliver_run s b).trans hrun) (hdeliver b)
  · exact step_inp_of_ready (s := (s.endInput).out _) hrun (.inr rfl)

end Sys2Proof.Machine
end

/-! The step (35_execution_cycle.md R80-R90; 60_exceptions.md R201): every instruction answers a next state, so a step
stops only in a terminal state and in a hold; what it fetches is the cell at PC, as the last store left it. -/
section
namespace Sys2Proof.Machine

/-- Settles O39: every arm of `exec` is a next state by definition, `raise` among them. -/
theorem everyInstructionCompletes : Obligations.EveryInstructionCompletes := by
  intro i s
  cases i <;> exact ⟨_, rfl⟩

/-! ### Fetch -/

theorem fetch_of_ne {s : State} (h : s.pc ≠ kbsrAddr) : s.fetch = { s with ir := s.cell s.pc, pc := s.pc + 1 } := by
  rw [State.fetch, memRead_eq_cell_afterRead, afterRead_of_ne s h]

theorem fetch_at_kbsr {s : State} (h : s.pc = kbsrAddr) :
    s.fetch = { s.poll with ir := s.poll.cell s.pc, pc := s.pc + 1 } := by
  rw [State.fetch, memRead_eq_cell_afterRead, Spec.afterRead, if_pos h]

/-- Settles O36, by `step_atFetch` with the fetch written out, and by `step_of_routine`. -/
theorem stepRunsTheDecodedInstruction : Obligations.StepRunsTheDecodedInstruction := by
  intro s hrun
  refine ⟨fun hroutine hpc => ?_, fun hroutine hpc => ?_, fun r => step_of_routine hrun⟩
  · rw [step_atFetch ⟨hrun, hroutine⟩, fetch_of_ne hpc]
  · rw [step_atFetch ⟨hrun, hroutine⟩, fetch_at_kbsr hpc]

/-- Settles O8: the fetch reads the cell (`fetch_of_ne`), and the cell holds what was stored (`memWrite_cell`). -/
theorem storeIsSeenByTheNextFetch : Obligations.StoreIsSeenByTheNextFetch := by
  intro s a v hwf ha
  rw [fetch_of_ne (s := (s.memWrite a v).setPc a) ha]
  exact (memWrite_cell s a a v hwf).trans (if_pos rfl)

/-! ### Where a step stops -/

theorem resume_ne_refused (r : Routine) (s : State) (why : Refusal) : resume r s ≠ .refused why := by
  cases r with
  | getc | inp => simp only [resume]; split <;> nofun
  | puts | putsp => nofun

theorem resume_isNext_iff (r : Routine) (s : State) :
    (∃ t, resume r s = .next t) ↔ (r = .getc ∨ r = .inp → s.inputReady) := by
  cases r with
  | getc | inp => by_cases hready : s.inRead.isSome <;> simp [resume, hready, ← inRead_isSome_iff]
  | puts | putsp => simp [resume]

/-- Settles O38: a running machine answers for its routine (`resume_isNext_iff`) or, in none, for its instruction. -/
theorem stepStopsOnlyWhereTheSpecDoes : Obligations.StepStopsOnlyWhereTheSpecDoes := by
  intro s
  cases hrun : s.run with
  | halted => rw [step_of_halted hrun]; exact ⟨nofun, nofun, fun h => nomatch h.1⟩
  | faulted a => rw [step_of_faulted hrun]; exact ⟨nofun, nofun, fun h => nomatch h.1⟩
  | running =>
    cases hroutine : s.routine with
    | some r =>
      rw [step_of_routine hrun hroutine, resume_isNext_iff]
      exact ⟨resume_ne_refused r s, by simp⟩
    | none =>
      obtain ⟨t, ht⟩ := everyInstructionCompletes (decode s.fetch.ir) s.fetch
      rw [step_atFetch ⟨hrun, hroutine⟩, ht]
      exact ⟨nofun, fun _ => ⟨rfl, by simp⟩, fun _ => ⟨t, rfl⟩⟩

end Sys2Proof.Machine
end

/-! The input (20_memory.md R55): `withInput` puts another stream in its place, and no operation but the poll and
`InRead()` tells the two apart. -/
section
namespace Sys2Proof.Machine

/-- The state with another input stream. -/
def State.withInput (s : State) (input : List Byte) (ended : Bool) : State :=
  { s with input := input, inputEnded := ended }

theorem withInput_pcOffset9 (s : State) (input : List Byte) (ended : Bool) (off : BitVec 9) :
    (s.withInput input ended).pcOffset9 off = s.pcOffset9 off := rfl

theorem memRead_of_ne (s : State) {a : Word} (h : kbsrAddr ≠ a) : s.memRead a = (s.cell a, s) := if_neg h.symm

theorem load_withInput {s : State} (input : List Byte) (ended : Bool) (dr : Reg) {ea : Word} (h : kbsrAddr ≠ ea) :
    (s.withInput input ended).load dr ea = (s.load dr ea).withInput input ended := by
  rw [State.load, State.load, memRead_of_ne s h, memRead_of_ne (s.withInput input ended) h]
  rfl

theorem stringBody_withInput (r : Routine) (bytes : List Word → List Byte) (s : State) (input : List Byte)
    (ended : Bool) : (s.withInput input ended).stringBody r bytes = (s.stringBody r bytes).withInput input ended := by
  have hreg : (s.withInput input ended).reg 0#3 = s.reg 0#3 := rfl
  have hwords : ∀ a n, stringWords (s.withInput input ended) a n = stringWords s a n := stringWords_congr rfl
  unfold State.stringBody
  rw [hreg, hwords]
  split <;> rfl

/-- Settles O46: the loads by `load_withInput`, STI's pointer by `memRead_of_ne`, the strings by `stringBody_withInput`;
the other instructions read no input by definition. -/
theorem onlyPollsAndInputTrapsSeeInput : Obligations.OnlyPollsAndInputTrapsSeeInput := by
  intro i s t input ended h hgetc hin hread
  change exec i (s.withInput input ended) = .next (t.withInput input ended)
  cases i with
  | trapGetc => exact absurd rfl hgetc
  | trapIn => exact absurd rfl hin
  | br cond off =>
    cases h
    exact congrArg Host.Outcome.next
      (apply_ite (State.withInput · input ended) (s.condHolds cond) (s.setPc (s.pcOffset9 off)) s).symm
  | ld dr off | ldr dr base off =>
    cases h
    exact congrArg Host.Outcome.next (load_withInput input ended dr (List.ne_of_not_mem_cons hread))
  | ldi dr off =>
    have hpointer : kbsrAddr ≠ s.pcOffset9 off := List.ne_of_not_mem_cons hread
    have hdatum : kbsrAddr ≠ (s.memRead (s.pcOffset9 off)).1 :=
      List.ne_of_not_mem_cons (List.not_mem_of_not_mem_cons hread)
    rw [memRead_of_ne s hpointer] at hdatum
    rw [exec_ldi, afterRead_of_ne s hpointer.symm] at h
    rw [exec_ldi, withInput_pcOffset9, afterRead_of_ne _ hpointer.symm]
    cases h
    exact congrArg Host.Outcome.next (load_withInput input ended dr hdatum)
  | sti sr off =>
    have hpointer : kbsrAddr ≠ s.pcOffset9 off := List.ne_of_not_mem_cons hread
    rw [exec_sti, afterRead_of_ne s hpointer.symm] at h
    rw [exec_sti, withInput_pcOffset9, afterRead_of_ne _ hpointer.symm]
    cases h
    rfl
  | trapPuts | trapPutsp => cases h; exact congrArg Host.Outcome.next (stringBody_withInput _ _ s input ended)
  | _ => cases h; rfl

end Sys2Proof.Machine
end

/-! The remaining values and small frames: reset (10_state.md R34), COND (R27), JSRR (42_control.md R154), the unknown
vector (43_trap_and_system.md R177) and image files (70_reset_and_hazards.md R233). -/
section
namespace Sys2Proof.Machine

theorem reset_reg (r : Reg) : State.reset.reg r = 0 := Vector.getElem_replicate _

/-- Settles O3: the values are those of the definition; the registers are all alike. -/
theorem resetValues : Obligations.ResetValues :=
  ⟨reset_reg, rfl, rfl, rfl, ⟨rfl, rfl⟩, fun _ => rfl, rfl, rfl⟩

/-- A flag is one bit. -/
theorem flagOf_one_bit (v : Word) : ∃ k, ∀ j, (flagOf v).getLsbD j = decide (j = k) := by
  have one_bit (k : Nat) (hk : k < 16) (j : Nat) : (BitVec.twoPow 16 k).getLsbD j = decide (j = k) := by
    rw [BitVec.getLsbD_twoPow, decide_eq_true hk, Bool.true_and]
    exact decide_eq_decide.mpr eq_comm
  obtain h | h | h := flagOf_legal v <;> rw [h]
  · exact ⟨0, one_bit 0 (by decide)⟩
  · exact ⟨1, one_bit 1 (by decide)⟩
  · exact ⟨2, one_bit 2 (by decide)⟩

/-- Settles O4: `setcc` writes `flagOf` of the register, whose cases `flagOf_eq_of_toNat` names. -/
theorem setccChoosesTheFlag : Obligations.SetccChoosesTheFlag := by
  intro s i
  refine ⟨?_, flagOf_one_bit (s.reg i), rfl⟩
  have hzero : s.reg i = 0 ↔ (s.reg i).toNat = 0 := BitVec.toNat_inj.symm
  exact (flagOf_eq_of_toNat (s.reg i)).trans (if_congr hzero rfl rfl)

/-- Settles O25: the base is read after the link, so through R7 it is the link (`link_reg`). -/
theorem jsrrLinksThenReadsBase : Obligations.JsrrLinksThenReadsBase := by
  refine ⟨fun w hop hbit => ?_, fun base s => ⟨_, rfl, link_reg_link s, fun r => link_reg_of_ne s, ?_, rfl⟩⟩
  · rw [decode_of_jsr hop, hbit, if_neg Bool.false_ne_true]
  · exact (link_reg s base).trans (if_congr eq_comm rfl rfl)

/-- Settles O32: an unknown-vector TRAP only raises its abort (`raise_aborts`). -/
theorem unknownVectorFaults : Obligations.UnknownVectorFaults := by
  refine ⟨fun w hop hvec => (decode_of_trap hop).trans (decodeTrap_of_not_mem hvec), fun v s => ?_⟩
  obtain ⟨t, hexec, hrun, hframe, -⟩ := raise_aborts s (.unknownTrapVector v s.ir (s.pc - 1))
  exact ⟨t, hexec, hrun, hframe⟩

/-! ### Image files -/

theorem ofNat_append_ofNat (w : Word) : BitVec.ofNat 8 (w.toNat / 256) ++ BitVec.ofNat 8 w.toNat = w := by
  rw [← highByte_eq_ofNat, ← lowByte_eq_ofNat]
  exact BitVec.extractLsb'_append_extractLsb'

theorem wordsOfBytes_bigEndian (ws : List Word) : wordsOfBytes (Spec.bigEndian ws) = some ws := by
  induction ws with
  | nil => rfl
  | cons w rest ih =>
    change (wordsOfBytes (Spec.bigEndian rest)).map _ = _
    rw [ih, Option.map_some, ofNat_append_ofNat]

theorem wordsOfBytes_of_odd (bytes : List Byte) (h : bytes.length % 2 = 1) : wordsOfBytes bytes = none := by
  induction bytes using wordsOfBytes.induct with
  | case1 => cases h
  | case2 => rfl
  | case3 hi lo rest ih =>
    have hrest : rest.length % 2 = 1 := by
      rw [List.length_cons, List.length_cons] at h
      omega
    rw [wordsOfBytes, ih hrest, Option.map_none]

/-- Settles O56: the words are read back (`wordsOfBytes_bigEndian`), an odd file has none (`wordsOfBytes_of_odd`), and a
launch checks every image. -/
theorem launchRefusesWhatDoesNotFit : Obligations.LaunchRefusesWhatDoesNotFit := by
  refine ⟨fun origin words => ?_, fun file hodd => ?_, fun images input ended => ?_⟩
  · rw [parseImage, wordsOfBytes_bigEndian]
  · rw [parseImage, wordsOfBytes_of_odd file hodd]
  · simp [launch, Image.fits]

end Sys2Proof.Machine
end
